-- ==== Sys2Proof/Word.lean ====
section
/-! DEFINITION. The word types of the block: a stream byte, a 32-bit host register or command word, the 54-bit packet
register. Bit 0 is the least-significant bit throughout (spec/00_scope.md R7). -/

namespace Sys2Proof

/-- One byte of a `DIN` or `DOUT` stream (spec/10_state.md R27), and the byte form of one sample (R21). -/
abbrev Byte := BitVec 8

/-- A 32-bit host register value (`DW` = 32) or command word (spec/10_state.md R24 to R28). -/
abbrev Word := BitVec 32

/-- The packet register's value: `PLEN` = 54 bits, bit `i` at offset `i` (spec/10_state.md R23). -/
abbrev Packet := BitVec 54

end Sys2Proof
end

