-- ==== Sys2Proof/Syntax.lean ====
section
/-! DEFINITION. The 39 commands of `LPXF-1`, one constructor per row of spec/opcode_table.json, in the table's order
(spec/30_encoding.md R80). Operands are unsigned numbers (R73): `c` a channel, `lo` a start offset, `len` a length. A
count, a frame offset or a field value is not an operand of the word: it is the register `ARG`. -/

namespace Sys2Proof

/-- A command of the block. -/
inductive Instr where
  | initHigh
  | initLow
  | toBytes
  | fromBytes
  | setChannelBitstream (c : Nat)
  | getChannelBitstream (c : Nat)
  | setClockPattern (c : Nat)
  | intToBits (len : Nat)
  | bitsToInt (len : Nat)
  | fieldGet (lo len : Nat)
  | fieldSet (lo len : Nat)
  | pktClear
  | getPacketType
  | setPacketType
  | getChipid
  | setChipid
  | getChannelid
  | setChannelid
  | getTimestamp
  | setTimestamp
  | getDataword
  | setDataword
  | getFifoHalf
  | setFifoHalf
  | getFifoFull
  | setFifoFull
  | getRegister
  | setRegister
  | getRegisterData
  | setRegisterData
  | getTestCounter
  | setTestCounter
  | getParity
  | forceSetParity
  | computeParity
  | setParity
  | checkParity
  | embed (c : Nat)
  | extract (c : Nat)
  deriving DecidableEq, Repr

/-- The four operand classes: which fields of the word a command uses (spec/30_encoding.md R72). -/
inductive OperandClass where
  | cmdN
  | cmdC
  | cmdL
  | cmdF
  deriving DecidableEq, Repr

end Sys2Proof
end

