-- ==== Sys2Proof/WellFormed.lean ====
section
/-! DEFINITION. Which commands have a command word: every operand fits its field. These are the operands the assembler
does not refuse (spec/30_encoding.md R82: it refuses `c > 255`, `lo > 63`, `len > 63`). An operand that fits its field
but is out of the command's range (a channel 8 to 255, a length above 32) is well formed: the block itself reports it. -/

namespace Sys2Proof

/-- `c` fits the 8-bit `CH` field (spec/30_encoding.md R71, R73). -/
def channelFits (c : Nat) : Bool := decide (c ≤ 255)

/-- `lo` fits the 6-bit `LO` field. -/
def startFits (lo : Nat) : Bool := decide (lo ≤ 63)

/-- `len` fits the 6-bit `LEN` field. -/
def lengthFits (len : Nat) : Bool := decide (len ≤ 63)

/-- Every operand of the command fits its field. -/
def WellFormed : Instr → Bool
  | .setChannelBitstream c | .getChannelBitstream c | .setClockPattern c => channelFits c
  | .embed c | .extract c => channelFits c
  | .intToBits len | .bitsToInt len => lengthFits len
  | .fieldGet lo len | .fieldSet lo len => startFits lo && lengthFits len
  | .initHigh | .initLow | .toBytes | .fromBytes | .pktClear => true
  | .getPacketType | .setPacketType | .getChipid | .setChipid => true
  | .getChannelid | .setChannelid | .getTimestamp | .setTimestamp => true
  | .getDataword | .setDataword | .getFifoHalf | .setFifoHalf => true
  | .getFifoFull | .setFifoFull | .getRegister | .setRegister => true
  | .getRegisterData | .setRegisterData | .getTestCounter | .setTestCounter => true
  | .getParity | .forceSetParity | .computeParity | .setParity | .checkParity => true

end Sys2Proof
end

