-- ==== Sys2Proof/Decode.lean ====
section
/-! DEFINITION. Reading a command word and writing one (spec/30_encoding.md R71 to R84). The decoder reads `OP`, looks
up the row, and checks that the bits its class does not use are zero (R74). The encoder is the assembler's formula (R84).
`opcodeMap` is the opcode map itself, row by row (R80), for the statements that compare the two. -/

namespace Sys2Proof

/-- Why a word is no legal command: the two cases of spec/60_exceptions.md R272. -/
inductive IllegalWord where
  /-- `OP` names no command (spec/30_encoding.md R75). -/
  | reservedOpcode
  /-- A field the opcode's class does not use, `RSV` included, is non-zero. -/
  | unusedFieldNonZero
  deriving DecidableEq, Repr

/-! ## The fields of a command word (R71) -/

/-- The unsigned number in the `width` bits of `w` from bit `lo` up. -/
def wordField (w : Word) (lo width : Nat) : Nat := (w.extractLsb' lo width).toNat

def fieldOp (w : Word) : Nat := wordField w 26 6
def fieldCh (w : Word) : Nat := wordField w 18 8
def fieldLo (w : Word) : Nat := wordField w 12 6
def fieldLen (w : Word) : Nat := wordField w 6 6
def fieldRsv (w : Word) : Nat := wordField w 0 6

/-! ## Decoding -/

/-- Accept `i` where the bits that must be zero are. -/
def acceptIf (zero : Bool) (i : Instr) : Except IllegalWord Instr :=
  if zero then .ok i else .error .unusedFieldNonZero

/-- A CMD-N word uses `OP` only (R72). -/
def decodeN (w : Word) (i : Instr) : Except IllegalWord Instr :=
  acceptIf (fieldCh w == 0 && fieldLo w == 0 && fieldLen w == 0 && fieldRsv w == 0) i

/-- A CMD-C word uses `OP` and `CH`. -/
def decodeC (w : Word) (i : Nat → Instr) : Except IllegalWord Instr :=
  acceptIf (fieldLo w == 0 && fieldLen w == 0 && fieldRsv w == 0) (i (fieldCh w))

/-- A CMD-L word uses `OP` and `LEN`. -/
def decodeL (w : Word) (i : Nat → Instr) : Except IllegalWord Instr :=
  acceptIf (fieldCh w == 0 && fieldLo w == 0 && fieldRsv w == 0) (i (fieldLen w))

/-- A CMD-F word uses `OP`, `LO` and `LEN`. -/
def decodeF (w : Word) (i : Nat → Nat → Instr) : Except IllegalWord Instr :=
  acceptIf (fieldCh w == 0 && fieldRsv w == 0) (i (fieldLo w) (fieldLen w))

/-- The command a word stands for, or why it is illegal (R74, R75, R80). -/
def decode (w : Word) : Except IllegalWord Instr :=
  match fieldOp w with
  | 0x01 => decodeN w .initHigh
  | 0x02 => decodeN w .initLow
  | 0x03 => decodeN w .toBytes
  | 0x04 => decodeN w .fromBytes
  | 0x05 => decodeC w .setChannelBitstream
  | 0x06 => decodeC w .getChannelBitstream
  | 0x07 => decodeC w .setClockPattern
  | 0x08 => decodeL w .intToBits
  | 0x09 => decodeL w .bitsToInt
  | 0x0A => decodeF w .fieldGet
  | 0x0B => decodeF w .fieldSet
  | 0x0C => decodeN w .pktClear
  | 0x10 => decodeN w .getPacketType
  | 0x11 => decodeN w .setPacketType
  | 0x12 => decodeN w .getChipid
  | 0x13 => decodeN w .setChipid
  | 0x14 => decodeN w .getChannelid
  | 0x15 => decodeN w .setChannelid
  | 0x16 => decodeN w .getTimestamp
  | 0x17 => decodeN w .setTimestamp
  | 0x18 => decodeN w .getDataword
  | 0x19 => decodeN w .setDataword
  | 0x1A => decodeN w .getFifoHalf
  | 0x1B => decodeN w .setFifoHalf
  | 0x1C => decodeN w .getFifoFull
  | 0x1D => decodeN w .setFifoFull
  | 0x1E => decodeN w .getRegister
  | 0x1F => decodeN w .setRegister
  | 0x20 => decodeN w .getRegisterData
  | 0x21 => decodeN w .setRegisterData
  | 0x22 => decodeN w .getTestCounter
  | 0x23 => decodeN w .setTestCounter
  | 0x24 => decodeN w .getParity
  | 0x25 => decodeN w .forceSetParity
  | 0x26 => decodeN w .computeParity
  | 0x27 => decodeN w .setParity
  | 0x28 => decodeN w .checkParity
  | 0x30 => decodeC w .embed
  | 0x31 => decodeC w .extract
  | _ => .error .reservedOpcode

/-- The command in a row of spec/opcode_table.json whose `nbits` bits are `w`, numbered as the table numbers them; the
word's bits above `nbits` are zero. A command word is one 32-bit value (R76), so no byte order enters. -/
def decodeTableWord (nbits w : Nat) : Option Instr :=
  (decode (BitVec.ofNat 32 (w % 2 ^ nbits))).toOption

/-! ## Encoding -/

/-- The opcode of a command (R80). -/
def opcode : Instr → Nat
  | .initHigh => 0x01
  | .initLow => 0x02
  | .toBytes => 0x03
  | .fromBytes => 0x04
  | .setChannelBitstream _ => 0x05
  | .getChannelBitstream _ => 0x06
  | .setClockPattern _ => 0x07
  | .intToBits _ => 0x08
  | .bitsToInt _ => 0x09
  | .fieldGet _ _ => 0x0A
  | .fieldSet _ _ => 0x0B
  | .pktClear => 0x0C
  | .getPacketType => 0x10
  | .setPacketType => 0x11
  | .getChipid => 0x12
  | .setChipid => 0x13
  | .getChannelid => 0x14
  | .setChannelid => 0x15
  | .getTimestamp => 0x16
  | .setTimestamp => 0x17
  | .getDataword => 0x18
  | .setDataword => 0x19
  | .getFifoHalf => 0x1A
  | .setFifoHalf => 0x1B
  | .getFifoFull => 0x1C
  | .setFifoFull => 0x1D
  | .getRegister => 0x1E
  | .setRegister => 0x1F
  | .getRegisterData => 0x20
  | .setRegisterData => 0x21
  | .getTestCounter => 0x22
  | .setTestCounter => 0x23
  | .getParity => 0x24
  | .forceSetParity => 0x25
  | .computeParity => 0x26
  | .setParity => 0x27
  | .checkParity => 0x28
  | .embed _ => 0x30
  | .extract _ => 0x31

/-- The operand class of a command (R72, R80). -/
def operandClass : Instr → OperandClass
  | .setChannelBitstream _ | .getChannelBitstream _ | .setClockPattern _ => .cmdC
  | .embed _ | .extract _ => .cmdC
  | .intToBits _ | .bitsToInt _ => .cmdL
  | .fieldGet _ _ | .fieldSet _ _ => .cmdF
  | .initHigh | .initLow | .toBytes | .fromBytes | .pktClear => .cmdN
  | .getPacketType | .setPacketType | .getChipid | .setChipid => .cmdN
  | .getChannelid | .setChannelid | .getTimestamp | .setTimestamp => .cmdN
  | .getDataword | .setDataword | .getFifoHalf | .setFifoHalf => .cmdN
  | .getFifoFull | .setFifoFull | .getRegister | .setRegister => .cmdN
  | .getRegisterData | .setRegisterData | .getTestCounter | .setTestCounter => .cmdN
  | .getParity | .forceSetParity | .computeParity | .setParity | .checkParity => .cmdN

/-- The word with the given fields: `(OP << 26) | (c << 18) | (lo << 12) | (len << 6)` (R84). -/
def assembleWord (op c lo len : Nat) : Word :=
  (BitVec.ofNat 32 op <<< 26) ||| (BitVec.ofNat 32 c <<< 18) ||| (BitVec.ofNat 32 lo <<< 12) |||
    (BitVec.ofNat 32 len <<< 6)

/-- The command word of a command. An operand term is present only where the command's class has that field (R84). It
is the command's word where the command is well formed. -/
def encode (i : Instr) : Word :=
  match i with
  | .setChannelBitstream c | .getChannelBitstream c | .setClockPattern c => assembleWord (opcode i) c 0 0
  | .embed c | .extract c => assembleWord (opcode i) c 0 0
  | .intToBits len | .bitsToInt len => assembleWord (opcode i) 0 0 len
  | .fieldGet lo len | .fieldSet lo len => assembleWord (opcode i) 0 lo len
  | .initHigh | .initLow | .toBytes | .fromBytes | .pktClear => assembleWord (opcode i) 0 0 0
  | .getPacketType | .setPacketType | .getChipid | .setChipid => assembleWord (opcode i) 0 0 0
  | .getChannelid | .setChannelid | .getTimestamp | .setTimestamp => assembleWord (opcode i) 0 0 0
  | .getDataword | .setDataword | .getFifoHalf | .setFifoHalf => assembleWord (opcode i) 0 0 0
  | .getFifoFull | .setFifoFull | .getRegister | .setRegister => assembleWord (opcode i) 0 0 0
  | .getRegisterData | .setRegisterData | .getTestCounter | .setTestCounter => assembleWord (opcode i) 0 0 0
  | .getParity | .forceSetParity | .computeParity | .setParity | .checkParity => assembleWord (opcode i) 0 0 0

/-! ## The opcode map, row by row (R80) -/

/-- One row of the opcode map. -/
structure OpcodeRow where
  mnemonic : String
  opClass : OperandClass
  pattern : Word
  mask : Word
  deriving DecidableEq, Repr

/-- The word is legal for the row's command (R80: `w & mask = match`). -/
def OpcodeRow.matches (r : OpcodeRow) (w : Word) : Bool := w &&& r.mask == r.pattern

/-- The sample store commands. -/
def opcodeMapStore : List OpcodeRow := [
  ⟨"INIT_HIGH", .cmdN, 0x04000000, 0xFFFFFFFF⟩,
  ⟨"INIT_LOW", .cmdN, 0x08000000, 0xFFFFFFFF⟩,
  ⟨"TO_BYTES", .cmdN, 0x0C000000, 0xFFFFFFFF⟩,
  ⟨"FROM_BYTES", .cmdN, 0x10000000, 0xFFFFFFFF⟩,
  ⟨"SET_CHANNEL_BITSTREAM", .cmdC, 0x14000000, 0xFC03FFFF⟩,
  ⟨"GET_CHANNEL_BITSTREAM", .cmdC, 0x18000000, 0xFC03FFFF⟩,
  ⟨"SET_CLOCK_PATTERN", .cmdC, 0x1C000000, 0xFC03FFFF⟩]

/-- The bitfield commands. -/
def opcodeMapBitfield : List OpcodeRow := [
  ⟨"INT_TO_BITS", .cmdL, 0x20000000, 0xFFFFF03F⟩,
  ⟨"BITS_TO_INT", .cmdL, 0x24000000, 0xFFFFF03F⟩,
  ⟨"FIELD_GET", .cmdF, 0x28000000, 0xFFFC003F⟩,
  ⟨"FIELD_SET", .cmdF, 0x2C000000, 0xFFFC003F⟩,
  ⟨"PKT_CLEAR", .cmdN, 0x30000000, 0xFFFFFFFF⟩]

/-- The accessors of the fields common to every type and of the Data fields. -/
def opcodeMapDataFields : List OpcodeRow := [
  ⟨"GET_PACKET_TYPE", .cmdN, 0x40000000, 0xFFFFFFFF⟩,
  ⟨"SET_PACKET_TYPE", .cmdN, 0x44000000, 0xFFFFFFFF⟩,
  ⟨"GET_CHIPID", .cmdN, 0x48000000, 0xFFFFFFFF⟩,
  ⟨"SET_CHIPID", .cmdN, 0x4C000000, 0xFFFFFFFF⟩,
  ⟨"GET_CHANNELID", .cmdN, 0x50000000, 0xFFFFFFFF⟩,
  ⟨"SET_CHANNELID", .cmdN, 0x54000000, 0xFFFFFFFF⟩,
  ⟨"GET_TIMESTAMP", .cmdN, 0x58000000, 0xFFFFFFFF⟩,
  ⟨"SET_TIMESTAMP", .cmdN, 0x5C000000, 0xFFFFFFFF⟩,
  ⟨"GET_DATAWORD", .cmdN, 0x60000000, 0xFFFFFFFF⟩,
  ⟨"SET_DATAWORD", .cmdN, 0x64000000, 0xFFFFFFFF⟩,
  ⟨"GET_FIFO_HALF", .cmdN, 0x68000000, 0xFFFFFFFF⟩,
  ⟨"SET_FIFO_HALF", .cmdN, 0x6C000000, 0xFFFFFFFF⟩,
  ⟨"GET_FIFO_FULL", .cmdN, 0x70000000, 0xFFFFFFFF⟩,
  ⟨"SET_FIFO_FULL", .cmdN, 0x74000000, 0xFFFFFFFF⟩]

/-- The accessors of the ConfigWrite, ConfigRead and Test fields. -/
def opcodeMapConfigFields : List OpcodeRow := [
  ⟨"GET_REGISTER", .cmdN, 0x78000000, 0xFFFFFFFF⟩,
  ⟨"SET_REGISTER", .cmdN, 0x7C000000, 0xFFFFFFFF⟩,
  ⟨"GET_REGISTER_DATA", .cmdN, 0x80000000, 0xFFFFFFFF⟩,
  ⟨"SET_REGISTER_DATA", .cmdN, 0x84000000, 0xFFFFFFFF⟩,
  ⟨"GET_TEST_COUNTER", .cmdN, 0x88000000, 0xFFFFFFFF⟩,
  ⟨"SET_TEST_COUNTER", .cmdN, 0x8C000000, 0xFFFFFFFF⟩]

/-- The parity commands and the framing commands. -/
def opcodeMapParityFraming : List OpcodeRow := [
  ⟨"GET_PARITY", .cmdN, 0x90000000, 0xFFFFFFFF⟩,
  ⟨"FORCE_SET_PARITY", .cmdN, 0x94000000, 0xFFFFFFFF⟩,
  ⟨"COMPUTE_PARITY", .cmdN, 0x98000000, 0xFFFFFFFF⟩,
  ⟨"SET_PARITY", .cmdN, 0x9C000000, 0xFFFFFFFF⟩,
  ⟨"CHECK_PARITY", .cmdN, 0xA0000000, 0xFFFFFFFF⟩,
  ⟨"EMBED", .cmdC, 0xC0000000, 0xFC03FFFF⟩,
  ⟨"EXTRACT", .cmdC, 0xC4000000, 0xFC03FFFF⟩]

/-- The 39 rows of the opcode map, in its order. -/
def opcodeMap : List OpcodeRow :=
  opcodeMapStore ++ opcodeMapBitfield ++ opcodeMapDataFields ++ opcodeMapConfigFields ++ opcodeMapParityFraming

end Sys2Proof
end

