-- ==== Sys2Proof/Config.lean ====
section
/-! DEFINITION. What is fixed when the block is built (spec/00_scope.md R6, spec/10_state.md R29) and the one free value
of the model: the content of a sample cell nothing has written. -/

namespace Sys2Proof

/-- `BPB`, the samples per logical bit: 4 in the production layout, 1 in the simplified layout; no other value is
legal (spec/00_scope.md R6). -/
inductive BitsPerBaud where
  | one
  | four
  deriving DecidableEq, Repr

/-- The number `BPB` stands for. -/
def BitsPerBaud.samples : BitsPerBaud → Nat
  | .one => 1
  | .four => 4

/-- The four packet types (spec/42_packet_fields.md R171). -/
inductive PacketType where
  | data
  | test
  | configWrite
  | configRead
  deriving DecidableEq, Repr

/-- `PTYPE_CODE`: the 2-bit code of each packet type (spec/00_scope.md R6). It only names the values of the
packet-type field: no command reads it. -/
structure PacketTypeCode where
  data : BitVec 2
  test : BitVec 2
  configWrite : BitVec 2
  configRead : BitVec 2
  deriving DecidableEq, Repr

/-- The code of one packet type. -/
def PacketTypeCode.code (k : PacketTypeCode) : PacketType → BitVec 2
  | .data => k.data
  | .test => k.test
  | .configWrite => k.configWrite
  | .configRead => k.configRead

/-- The packet type a 2-bit field value names under `k`. Under a one-to-one `k` every value is the code of one type
(spec/42_packet_fields.md R171). -/
def PacketTypeCode.typeOf (k : PacketTypeCode) (v : BitVec 2) : PacketType :=
  if v = k.data then .data
  else if v = k.test then .test
  else if v = k.configWrite then .configWrite
  else .configRead

/-- The map is one-to-one, so onto 0..3 (spec/00_scope.md R6). -/
def PacketTypeCode.legal (k : PacketTypeCode) : Bool :=
  [k.data, k.test, k.configWrite, k.configRead].Nodup

/-- The three parameters a model takes as arguments (spec/00_scope.md R6). -/
structure Params where
  bitsPerBaud : BitsPerBaud
  extractPhase : Nat
  packetTypeCode : PacketTypeCode
  deriving DecidableEq, Repr

/-- The legal values: `BPB ∈ {1, 4}` by its type, `0 ≤ EXTRACT_PHASE < BPB`, a one-to-one `PTYPE_CODE`
(spec/00_scope.md R6). -/
def Params.legal (b : Params) : Bool :=
  decide (b.extractPhase < b.bitsPerBaud.samples) && b.packetTypeCode.legal

/-- The values this hardware takes (spec/00_scope.md R6, spec/92_eei_decisions.md D9, D13, D14): `BPB` 4, phase 0,
Data 0, Test 1, ConfigWrite 2, ConfigRead 3. -/
def Params.canonical : Params where
  bitsPerBaud := .four
  extractPhase := 0
  packetTypeCode := { data := 0, test := 1, configWrite := 2, configRead := 3 }

/-- FREE VALUE (notes/assumptions/5.md). The content of the sample cell of a channel at an index that no command has
written since the reset with the given number: "the hardware holds whatever its storage powers up with"
(spec/10_state.md R33, spec/93_implementation_defined.md I1). It has no body, so nothing can be proved of its value. -/
opaque Config.powerUpSample : (resetNumber : Nat) → (channel : Nat) → (index : Nat) → Bool

end Sys2Proof
end

