-- ==== Sys2Proof/Machine/State.lean ====
section
/-! DEFINITION. The state of the block as plain data (spec/10_state.md R20 to R33), what the host can send and get back
(spec/60_exceptions.md R290), the reasons a step can stop, and the state after reset. -/

namespace Sys2Proof.Machine

/-- One host interaction (spec/60_exceptions.md R290): the complete list of what the host can do. A command carries its
whole input stream `DIN`, which is empty where the command takes none (spec/30_encoding.md R70). -/
inductive Interaction where
  | writeArg (value : Word)
  | command (word : Word) (din : List Byte)
  | readResult
  | readStatus
  | reset
  deriving DecidableEq, Repr

/-- What one host interaction gives back (spec/60_exceptions.md R290): a command its `DOUT`, which is empty for most
commands; a host read the register's value. -/
inductive Response where
  | dout (bytes : List Byte)
  | result (value : Word)
  | status (value : Word)
  deriving DecidableEq, Repr

/-- The outcome of a command, the field `STATUS.CODE` (spec/10_state.md R26, spec/60_exceptions.md R271). Code 3 is
reserved and never written. -/
inductive StatusCode where
  | ok
  | rangeError
  | illegalCommand
  deriving DecidableEq, Repr

/-- Why the machine has no next step. -/
inductive Fault where
  /-- Raised by FROM_BYTES, SET_CHANNEL_BITSTREAM and BITS_TO_INT where `DIN` holds fewer items than the command needs:
  the transaction is not admitted, the block takes no step and waits, and in a model it is stuck
  (spec/40_sample_buffer.md R103, spec/60_exceptions.md R274). Safe: no claim can rest on a run that contains one. -/
  | inputNotAdmitted
  deriving DecidableEq, Repr

/-- Why an instruction has no meaning. -/
inductive Refusal where
  /-- Kept for the host's interface: an instruction without a meaning, by its mnemonic. No arm of `exec` raises it: every
  command is modelled. Safe: such an instruction would only stop. -/
  | notModelled (mnemonic : String)
  deriving DecidableEq, Repr

/-- The state. The first seven fields are the block's (spec/10_state.md R20) with the model's shadow (R22, R279); the rest
are the model's own: what the host has sent and got (spec/60_exceptions.md R290, R293), the parameters the model is taken
at (R29), and the number of resets so far, which names the unspecified contents of the sample store. -/
structure State where
  /-- `S` and `SVALID` (R21, R22): the cell of channel `c` at index `j` is listed at address `c * 1024 + j`, with its
  sample in the byte form `0x00` or `0x01`, exactly when some command has written it since reset. -/
  samples : List Host.Cell
  /-- `P` (R23). -/
  packet : Packet
  /-- `ARG` (R24). -/
  arg : Word
  /-- `RESULT` (R25). -/
  result : Word
  /-- `STATUS` (R26): `CODE` in bits 1:0, bits 31:2 hardwired 0. -/
  status : Word
  /-- The model-only record that a never-written sample was read; kept for the rest of the run (R22, R279). -/
  uninitSampleRead : Bool
  /-- `DIN` of the command in progress (R27); empty between commands. -/
  din : List Byte
  /-- What the host has yet to send, first interaction first (spec/20_memory.md R61). -/
  pending : List Interaction
  /-- What the block has given back so far, first response first (spec/60_exceptions.md R293). -/
  responses : List Response
  /-- The parameters, fixed when the block is built (R29). -/
  build : Params
  /-- How many resets have happened since the state `State.reset`. -/
  resetNumber : Nat
  deriving DecidableEq, Repr

/-- The machine right after reset (spec/10_state.md R33, spec/70_reset_and_hazards.md R300, R301): `P`, `ARG`, `RESULT` and
`STATUS` are 0, no sample is written, no command is in progress. The host has sent nothing yet; the parameters have the
values this hardware takes (spec/00_scope.md R6). -/
def State.reset : State where
  samples := []
  packet := 0
  arg := 0
  result := 0
  status := 0
  uninitSampleRead := false
  din := []
  pending := []
  responses := []
  build := Params.canonical
  resetNumber := 0

end Sys2Proof.Machine
end

