-- ==== Sys2Proof/Machine/Ops.lean ====
section
/-! DEFINITION. The named operations over the sample store, the packet register, the host registers and the host
interface that every meaning is written with; reporting an error (spec/60_exceptions.md R277), which this block has in
place of taking an exception, and completing. -/

namespace Sys2Proof.Machine

/-! ## Memory: a list of (address, byte) pairs, addresses strictly rising -/

/-- The byte listed at an address; an unlisted address has no value. -/
def Memory.read : List Host.Cell → Nat → Option Byte
  | [], _ => none
  | (k, b) :: m, a => if k = a then some b else Memory.read m a

/-- The bytes `bs` at consecutive addresses from `base` up. -/
def Memory.run (base : Nat) : List Byte → List Host.Cell
  | [] => []
  | b :: bs => (base, b) :: Memory.run (base + 1) bs

/-- Store the bytes `bs` at consecutive addresses from `base` up; every other address keeps what it has. -/
def Memory.writeRun (m : List Host.Cell) (base : Nat) (bs : List Byte) : List Host.Cell :=
  m.filter (fun x => decide (x.1 < base)) ++ Memory.run base bs ++
    m.filter (fun x => decide (base + bs.length ≤ x.1))

/-- The canonical form of a list whose addresses are all at least `lo`: addresses strictly rise and lie in the sample
space of 8 × 1024 cells, and every byte is a sample, `0x00` or `0x01` (spec/10_state.md R21: "every stored value is
exactly 0 or 1"). -/
def Memory.wfFrom (lo : Nat) : List Host.Cell → Bool
  | [] => true
  | (a, b) :: m => decide (lo ≤ a) && decide (a < 8192) && (b == 0x00 || b == 0x01) && Memory.wfFrom (a + 1) m

/-- The canonical form of the sample store's memory. An unlisted address has no value, so no entry can equal what an
unlisted address reads as. -/
def Memory.wf (m : List Host.Cell) : Bool := Memory.wfFrom 0 m

/-! ## The sample store (spec/10_state.md R21, R22) -/

/-- The address of `S[c][j]`. -/
def sampleAddress (c j : Nat) : Nat := c * 1024 + j

/-- A sample in its byte form: `0x00` for 0, `0x01` for 1 (spec/40_sample_buffer.md R104). -/
def sampleByte (b : Bool) : Byte := if b then 0x01 else 0x00

/-- A byte taken as one sample: any non-zero byte is 1 (spec/40_sample_buffer.md R105). -/
def byteSample (b : Byte) : Bool := b != 0

/-- `SVALID[c][j]`: some command has written the cell since reset (R22). -/
def State.sampleValid (s : State) (c j : Nat) : Bool := (Memory.read s.samples (sampleAddress c j)).isSome

/-- `MemRead(c, j)`: the sample the cell holds; for a cell nothing has written, whatever the storage powered up with,
a free value (R22, spec/93_implementation_defined.md I1). -/
def State.sample (s : State) (c j : Nat) : Bool :=
  match Memory.read s.samples (sampleAddress c j) with
  | some b => byteSample b
  | none => Config.powerUpSample s.resetNumber c j

/-- `MemWrite(c, j, bits[0])`, `MemWrite(c, j + 1, bits[1])`, …: write consecutive samples of one channel from index `j`
up. Every cell written becomes valid (R22). -/
def State.writeSamples (s : State) (c j : Nat) (bits : List Bool) : State :=
  { s with samples := Memory.writeRun s.samples (sampleAddress c j) (bits.map sampleByte) }

/-- Record `UninitSampleRead` if any cell `(c, j)` of the list is read without having been written
(R22, spec/60_exceptions.md R279). The record is never cleared. -/
def State.recordReads (s : State) (cells : List (Nat × Nat)) : State :=
  { s with uninitSampleRead := s.uninitSampleRead || cells.any (fun x => !s.sampleValid x.1 x.2) }

/-! ## The packet register (spec/10_state.md R23) -/

/-- `P[i] <- b`. -/
def setPacketBit (p : Packet) (i : Nat) (b : Bool) : Packet :=
  if b then p ||| ((1 : Packet) <<< i) else p &&& ~~~((1 : Packet) <<< i)

/-- `P[lo] <- bits[0]`, `P[lo + 1] <- bits[1]`, …. -/
def writePacketBits (p : Packet) (lo : Nat) : List Bool → Packet
  | [] => p
  | b :: bs => writePacketBits (setPacketBit p lo b) (lo + 1) bs

/-- `[P[lo], P[lo + 1], …, P[lo + len - 1]]`. -/
def readPacketBits (p : Packet) (lo len : Nat) : List Bool :=
  (List.range len).map (fun i => p.getLsbD (lo + i))

/-- Replace the packet register. -/
def State.setPacket (s : State) (p : Packet) : State := { s with packet := p }

/-! ## The host registers -/

/-- `RESULT <- zext_32(v)` for a `v` that fits 32 bits (spec/10_state.md R25). -/
def State.setResult (s : State) (v : Nat) : State := { s with result := BitVec.ofNat 32 v }

/-- The value of `STATUS` with a code in `CODE` and the reserved bits 0 (spec/10_state.md R26, spec/60_exceptions.md R271). -/
def StatusCode.word : StatusCode → Word
  | .ok => 0
  | .rangeError => 1
  | .illegalCommand => 2

/-- The end of every command: `STATUS.CODE` is written, the input stream is gone, and the host gets `DOUT`
(spec/10_state.md R26, R27). -/
def State.endCommand (s : State) (code : StatusCode) (dout : List Byte) : State :=
  { s with status := code.word, din := [], responses := s.responses ++ [.dout dout] }

/-- `STATUS.CODE <- OK`, the output stream being `dout`. -/
def State.complete (s : State) (dout : List Byte) : State := s.endCommand .ok dout

/-- `raise RangeError()` or `raise IllegalCommand()`: `STATUS.CODE` takes the error's code, `DOUT` is empty, and `S`, `P`,
`ARG` and `RESULT` are unchanged (spec/60_exceptions.md R270, R277). There is no vector and nothing is saved; after an
error the next command runs as usual (R278). -/
def State.raise (s : State) (code : StatusCode) : State := s.endCommand code []

/-! ## Checks that come before any write (spec/40_sample_buffer.md R100, spec/60_exceptions.md R275) -/

/-- Input admission: with fewer than `need` items in `DIN` the block has no step (spec/40_sample_buffer.md R103). -/
def requireInput (need : Nat) (s : State) (k : Host.Outcome State Fault Refusal) : Host.Outcome State Fault Refusal :=
  if s.din.length < need then .fault .inputNotAdmitted else k

/-- A range check: where it fails the command raises `RangeError()` and writes nothing else. -/
def requireRange (inRange : Bool) (s : State) (k : Host.Outcome State Fault Refusal) :
    Host.Outcome State Fault Refusal :=
  if inRange then k else .next (s.raise .rangeError)

/-! ## The host's interactions (spec/60_exceptions.md R290) -/

/-- Take the first pending interaction off the host's list, its effect aside. -/
def State.popInteraction (s : State) : State := { s with pending := s.pending.tail }

/-- A command transaction arrives: it leaves the host's list and its input stream is at the block (R70). -/
def State.beginCommand (s : State) (din : List Byte) : State := { s.popInteraction with din := din }

/-- An illegal command word: `ILLEGAL_COMMAND` and no other effect (spec/30_encoding.md R74, spec/60_exceptions.md R272). -/
def State.illegalCommand (s : State) : State := s.raise .illegalCommand

/-- The host writes `ARG`. -/
def State.hostWriteArg (s : State) (v : Word) : State := { s with arg := v }

/-- The host reads `RESULT`: no side effect, and the value goes to the host. -/
def State.hostReadResult (s : State) : State := { s with responses := s.responses ++ [.result s.result] }

/-- The host reads `STATUS`: no side effect (reading does not clear it), and the value goes to the host. -/
def State.hostReadStatus (s : State) : State := { s with responses := s.responses ++ [.status s.status] }

/-- The reset input (spec/70_reset_and_hazards.md R300): `P`, `ARG`, `RESULT` and `STATUS` go to 0, the contents of `S` are
unspecified and `SVALID` is cleared. The record `UninitSampleRead` stays for the rest of the run (spec/60_exceptions.md
R279). -/
def State.hostReset (s : State) : State :=
  { s with samples := [], packet := 0, arg := 0, result := 0, status := 0, din := [], resetNumber := s.resetNumber + 1 }

end Sys2Proof.Machine
end

