-- ==== Sys2Proof/Machine/Operands.lean ====
section
/-! DEFINITION. Every operand form: counts, channels, field ranges and frame footprints with their checks; the two
conversions every field rule uses (spec/00_scope.md R9); the byte forms of the streams; the framed packet. -/

namespace Sys2Proof.Machine

/-! ## Operands and their checks -/

/-- `n' = min(ARG, 1024)`, with `ARG` unsigned (spec/40_sample_buffer.md R101). -/
def State.count (s : State) : Nat := min s.arg.toNat 1024

/-- The channel check: `c < 8` (spec/40_sample_buffer.md R102). -/
def channelOk (c : Nat) : Bool := decide (c < 8)

/-- The length check: `len ≤ 32` (spec/41_bitfield.md R143). -/
def lengthOk (len : Nat) : Bool := decide (len ≤ 32)

/-- The field range check: `lo + len ≤ 54` (spec/41_bitfield.md R143). -/
def fieldOk (lo len : Nat) : Bool := decide (lo + len ≤ 54)

/-- `BPB`, the samples per logical bit. -/
def State.bpb (s : State) : Nat := s.build.bitsPerBaud.samples

/-- The footprint of a framed packet: `56 · BPB` samples (spec/44_framing.md R250). -/
def State.footprint (s : State) : Nat := 56 * s.bpb

/-- The frame offset `o`: all 32 bits of `ARG`, unsigned (spec/30_encoding.md R73). -/
def State.frameOffset (s : State) : Nat := s.arg.toNat

/-- The footprint check: `o + 56 · BPB ≤ 1024`, without wrap-around (spec/44_framing.md R251). -/
def State.footprintOk (s : State) : Bool := decide (s.frameOffset + s.footprint ≤ 1024)

/-! ## The conversions (spec/41_bitfield.md R140, R141) -/

/-- `bits_to_int`: the sum of `bits[i] · 2^i`; 0 for no bits. -/
def bitsToInt : List Bool → Nat
  | [] => 0
  | b :: bs => b.toNat + 2 * bitsToInt bs

/-- `int_to_bits(v, len)`: bit 0 first; bits of `v` at `len` and above are dropped. -/
def intToBits (v len : Nat) : List Bool := (List.range len).map (fun i => v.testBit i)

/-- The value of the field at `lo..lo+len-1` of a packet (spec/41_bitfield.md R146). -/
def fieldValue (p : Packet) (lo len : Nat) : Nat := bitsToInt (readPacketBits p lo len)

/-- The packet with the low `len` bits of `v` at `lo..lo+len-1` and every other offset as it was
(spec/41_bitfield.md R147). -/
def withField (p : Packet) (lo len v : Nat) : Packet := writePacketBits p lo (intToBits v len)

/-! ## Byte forms (spec/20_memory.md R52, spec/40_sample_buffer.md R104, R105) -/

/-- The byte of TO_BYTES at index `j`: bit `k` is channel `k`, LSB = channel 0 (spec/40_sample_buffer.md R108). -/
def State.packedByte (s : State) (j : Nat) : Byte :=
  (List.range 8).foldl (fun b k => b ||| ((sampleByte (s.sample k j)) <<< k)) 0

/-- The samples of one channel at indices `0..n-1`, by rising index. -/
def State.channelSamples (s : State) (c n : Nat) : List Bool := (List.range n).map (fun j => s.sample c j)

/-- The cells TO_BYTES reads: all eight channels at indices `0..n-1`. -/
def allChannelCells (n : Nat) : List (Nat × Nat) :=
  (List.range n).flatMap (fun j => (List.range 8).map (fun k => (k, j)))

/-- The cells of one channel at indices `0..n-1`. -/
def channelCells (c n : Nat) : List (Nat × Nat) := (List.range n).map (fun j => (c, j))

/-- The sample memory with bit `k` of byte `j` in the cell of channel `k` at index `j`, for the eight channels and every
byte given (spec/40_sample_buffer.md R109). Irreducible: its laws (Sys2Proof/Laws/Samples.lean) say all it does. -/
@[irreducible] def unpackInto (m : List Host.Cell) (bytes : List Byte) : List Host.Cell :=
  (List.range 8).foldl (fun m k => Memory.writeRun m (sampleAddress k 0) (bytes.map (fun b => sampleByte (b.getLsbD k)))) m

/-- FROM_BYTES's writes: `MemWrite(k, j, (bytes[j] >> k) & 1)` for every byte and every channel. -/
def State.unpackBytes (s : State) (bytes : List Byte) : State := { s with samples := unpackInto s.samples bytes }

/-! ## The framed packet (spec/44_framing.md R250) -/

/-- Logical bit `t` of the framed packet, `t = 0..55`: start 0, packet bit `t - 1`, stop 1. -/
def frameBit (p : Packet) (t : Nat) : Bool :=
  if t = 0 then false else if t = 55 then true else p.getLsbD (t - 1)

/-- The `56 · bpb` samples of the framed packet: sample `t · bpb + k` holds logical bit `t`. -/
def frameSamples (p : Packet) (bpb : Nat) : List Bool :=
  (List.range (56 * bpb)).map (fun m => frameBit p (m / bpb))

/-- The sample index EXTRACT reads for packet bit `i` (spec/44_framing.md R253). -/
def State.extractIndex (s : State) (i : Nat) : Nat :=
  s.frameOffset + (i + 1) * s.bpb + s.build.extractPhase

end Sys2Proof.Machine
end

