-- ==== Sys2Proof/Machine/Bitfield.lean ====
section
/-! DEFINITION. The bitfield bit-position decoder's commands (spec/41_bitfield.md R144 to R148), and the two shared
operations every field command is written with. -/

namespace Sys2Proof.Machine

/-- A getter's effect: `RESULT` takes the field at `lo..lo+len-1`; `P` is unchanged (R146). -/
def State.getField (s : State) (lo len : Nat) : State := (s.setResult (fieldValue s.packet lo len)).complete []

/-- A setter's effect: the field at `lo..lo+len-1` takes the low `len` bits of `ARG`; the parity bit is not recomputed
(R147). -/
def State.setField (s : State) (lo len : Nat) : State :=
  (s.setPacket (withField s.packet lo len s.arg.toNat)).complete []

/-- INT_TO_BITS (R144): emit the low `len` bits of `ARG`, one byte each, bit 0 first. -/
def execIntToBits (len : Nat) (s : State) : Host.Outcome State Fault Refusal :=
  requireRange (lengthOk len) s (.next (s.complete ((intToBits s.arg.toNat len).map sampleByte)))

/-- BITS_TO_INT (R145): `RESULT` takes the value of the first `len` input items, a non-zero byte counting as 1. -/
def execBitsToInt (len : Nat) (s : State) : Host.Outcome State Fault Refusal :=
  requireInput len s (requireRange (lengthOk len) s
    (.next ((s.setResult (bitsToInt ((s.din.take len).map byteSample))).complete [])))

/-- FIELD_GET (R146). -/
def execFieldGet (lo len : Nat) (s : State) : Host.Outcome State Fault Refusal :=
  requireRange (lengthOk len) s (requireRange (fieldOk lo len) s (.next (s.getField lo len)))

/-- FIELD_SET (R147). -/
def execFieldSet (lo len : Nat) (s : State) : Host.Outcome State Fault Refusal :=
  requireRange (lengthOk len) s (requireRange (fieldOk lo len) s (.next (s.setField lo len)))

/-- PKT_CLEAR (R148): every bit of `P` becomes 0, the parity bit as well. -/
def execPktClear (s : State) : Host.Outcome State Fault Refusal := .next ((s.setPacket 0).complete [])

end Sys2Proof.Machine
end

