-- ==== Sys2Proof/Machine/Framing.lean ====
section
/-! DEFINITION. The UART framer's commands (spec/44_framing.md R252, R253). -/

namespace Sys2Proof.Machine

/-- EMBED (R252): write the framed packet into channel `c` from sample index `ARG`. `P` is sent as it stands. -/
def execEmbed (c : Nat) (s : State) : Host.Outcome State Fault Refusal :=
  requireRange (channelOk c) s (requireRange s.footprintOk s
    (.next ((s.writeSamples c s.frameOffset (frameSamples s.packet s.bpb)).complete [])))

/-- The cells EXTRACT reads: one sample of each packet bit. -/
def State.extractCells (s : State) (c : Nat) : List (Nat × Nat) :=
  (List.range 54).map (fun i => (c, s.extractIndex i))

/-- EXTRACT (R253): read one sample of each packet bit of the frame at `ARG` in channel `c` into `P`. The start and stop
samples are neither read nor checked. -/
def execExtract (c : Nat) (s : State) : Host.Outcome State Fault Refusal :=
  requireRange (channelOk c) s (requireRange s.footprintOk s
    (.next (((s.recordReads (s.extractCells c)).setPacket
      (writePacketBits s.packet 0 ((List.range 54).map (fun i => s.sample c (s.extractIndex i))))).complete [])))

end Sys2Proof.Machine
end

