-- ==== Sys2Proof/Machine/PacketFields.lean ====
section
/-! DEFINITION. The named packet fields' getters and setters (spec/42_packet_fields.md R170 to R193). Each field sits at the
offsets of the table of R170; no accessor checks the packet type, and none can raise `RangeError` (R172). -/

namespace Sys2Proof.Machine

/-- GET_PACKET_TYPE (R174): the packet type, offsets 0–1. -/
def execGetPacketType (s : State) : Host.Outcome State Fault Refusal := .next (s.getField 0 2)

/-- SET_PACKET_TYPE (R175): the packet type, offsets 0–1. -/
def execSetPacketType (s : State) : Host.Outcome State Fault Refusal := .next (s.setField 0 2)

/-- GET_CHIPID (R176): the chip id, offsets 2–9. -/
def execGetChipid (s : State) : Host.Outcome State Fault Refusal := .next (s.getField 2 8)

/-- SET_CHIPID (R177): the chip id, offsets 2–9. -/
def execSetChipid (s : State) : Host.Outcome State Fault Refusal := .next (s.setField 2 8)

/-- GET_CHANNELID (R178): the channel id, offsets 10–16. -/
def execGetChannelid (s : State) : Host.Outcome State Fault Refusal := .next (s.getField 10 7)

/-- SET_CHANNELID (R179): the channel id, offsets 10–16. -/
def execSetChannelid (s : State) : Host.Outcome State Fault Refusal := .next (s.setField 10 7)

/-- GET_TIMESTAMP (R180): the timestamp, offsets 17–40. -/
def execGetTimestamp (s : State) : Host.Outcome State Fault Refusal := .next (s.getField 17 24)

/-- SET_TIMESTAMP (R181): the timestamp, offsets 17–40. -/
def execSetTimestamp (s : State) : Host.Outcome State Fault Refusal := .next (s.setField 17 24)

/-- GET_DATAWORD (R182): the dataword, offsets 41–50. -/
def execGetDataword (s : State) : Host.Outcome State Fault Refusal := .next (s.getField 41 10)

/-- SET_DATAWORD (R183): the dataword, offsets 41–50. -/
def execSetDataword (s : State) : Host.Outcome State Fault Refusal := .next (s.setField 41 10)

/-- GET_FIFO_HALF (R184): the fifo-half flag, offset 51. -/
def execGetFifoHalf (s : State) : Host.Outcome State Fault Refusal := .next (s.getField 51 1)

/-- SET_FIFO_HALF (R185): the fifo-half flag, offset 51. -/
def execSetFifoHalf (s : State) : Host.Outcome State Fault Refusal := .next (s.setField 51 1)

/-- GET_FIFO_FULL (R186): the fifo-full flag, offset 52. -/
def execGetFifoFull (s : State) : Host.Outcome State Fault Refusal := .next (s.getField 52 1)

/-- SET_FIFO_FULL (R187): the fifo-full flag, offset 52. -/
def execSetFifoFull (s : State) : Host.Outcome State Fault Refusal := .next (s.setField 52 1)

/-- GET_REGISTER (R188): the register address, offsets 10–17. -/
def execGetRegister (s : State) : Host.Outcome State Fault Refusal := .next (s.getField 10 8)

/-- SET_REGISTER (R189): the register address, offsets 10–17. -/
def execSetRegister (s : State) : Host.Outcome State Fault Refusal := .next (s.setField 10 8)

/-- GET_REGISTER_DATA (R190): the register data, offsets 18–25. -/
def execGetRegisterData (s : State) : Host.Outcome State Fault Refusal := .next (s.getField 18 8)

/-- SET_REGISTER_DATA (R191): the register data, offsets 18–25. -/
def execSetRegisterData (s : State) : Host.Outcome State Fault Refusal := .next (s.setField 18 8)

/-- The test counter: the low 12 bits at offsets 41–52, the high 4 bits at 10–13, `low | (high << 12)` (R192). -/
def testCounter (p : Packet) : Nat := fieldValue p 41 12 ||| (fieldValue p 10 4 <<< 12)

/-- The packet with the low 16 bits of `v` in the two halves of the test counter (R193). -/
def withTestCounter (p : Packet) (v : Nat) : Packet := withField (withField p 41 12 v) 10 4 (v >>> 12)

/-- GET_TEST_COUNTER (R192). -/
def execGetTestCounter (s : State) : Host.Outcome State Fault Refusal :=
  .next ((s.setResult (testCounter s.packet)).complete [])

/-- SET_TEST_COUNTER (R193): bits 16 to 31 of `ARG` are dropped. -/
def execSetTestCounter (s : State) : Host.Outcome State Fault Refusal :=
  .next ((s.setPacket (withTestCounter s.packet s.arg.toNat)).complete [])

end Sys2Proof.Machine
end

