-- ==== Sys2Proof/Machine/Flags.lean ====
section
/-! DEFINITION. The computed conditions of the block: the odd parity of the packet register (spec/43_parity.md R230) and the
view of `STATUS.CODE` (spec/10_state.md R26). There are no other flags (R31). -/

namespace Sys2Proof.Machine

/-- `compute_parity(P) = 1 ^ (P[0] ^ P[1] ^ … ^ P[52])` (spec/43_parity.md R230).
Irreducible: its laws are in Sys2Proof/Laws/Packet.lean. -/
@[irreducible] def computeParity (p : Packet) : Bool := (List.range 53).foldl (fun acc i => acc ^^ p.getLsbD i) true

/-- The stored parity bit, offset 53. -/
def storedParity (p : Packet) : Bool := p.getLsbD 53

/-- CHECK_PARITY's result: 0 = good, 1 = mismatch (spec/43_parity.md R234). -/
def parityMismatch (p : Packet) : Nat := if storedParity p = computeParity p then 0 else 1

/-- The field `CODE`, bits 1:0 of `STATUS`. -/
def State.statusCode (s : State) : BitVec 2 := s.status.extractLsb' 0 2

/-- The packet type that offsets 0–1 name under the parameter `PTYPE_CODE` (spec/42_packet_fields.md R171). No command
reads it (R172). -/
def State.packetType (s : State) : PacketType := s.build.packetTypeCode.typeOf (s.packet.extractLsb' 0 2)

end Sys2Proof.Machine
end

