-- ==== Sys2Proof/Machine/Parity.lean ====
section
/-! DEFINITION. The parity commands (spec/43_parity.md R231 to R235). -/

namespace Sys2Proof.Machine

/-- GET_PARITY (R231): the stored bit, whether or not it is correct. -/
def execGetParity (s : State) : Host.Outcome State Fault Refusal := .next (s.getField 53 1)

/-- FORCE_SET_PARITY (R235): offset 53 takes bit 0 of `ARG`, correct or not. -/
def execForceSetParity (s : State) : Host.Outcome State Fault Refusal := .next (s.setField 53 1)

/-- COMPUTE_PARITY (R232): `RESULT` takes the computed parity; `P[53]` is neither read nor written. -/
def execComputeParity (s : State) : Host.Outcome State Fault Refusal :=
  .next ((s.setResult (computeParity s.packet).toNat).complete [])

/-- SET_PARITY (R233): offset 53 takes the computed parity. -/
def execSetParity (s : State) : Host.Outcome State Fault Refusal :=
  .next ((s.setPacket (setPacketBit s.packet 53 (computeParity s.packet))).complete [])

/-- CHECK_PARITY (R234): a mismatch is a result, not an error. -/
def execCheckParity (s : State) : Host.Outcome State Fault Refusal :=
  .next ((s.setResult (parityMismatch s.packet)).complete [])

end Sys2Proof.Machine
end

