-- ==== Sys2Proof/Machine/SampleStore.lean ====
section
/-! DEFINITION. The sample store and channel multiplexer commands (spec/40_sample_buffer.md R106 to R112). -/

namespace Sys2Proof.Machine

/-- `n` equal samples. Irreducible so that no proof unfolds a long list by accident; its laws are in
Sys2Proof/Laws/Samples.lean. -/
@[irreducible] def fillBits (n : Nat) (b : Bool) : List Bool := List.replicate n b

/-- The clock pattern: the parity of each of the sample indices `0..n-1`. Irreducible as `fillBits` is. -/
@[irreducible] def clockBits (n : Nat) : List Bool := (List.range n).map (fun j => j.testBit 0)

/-- Write every sample of the store: the 8192 cells are the addresses from `S[0][0]` up. -/
def State.fillSamples (s : State) (b : Bool) : State := s.writeSamples 0 0 (fillBits 8192 b)

/-- INIT_HIGH (R106): every sample becomes 1. -/
def execInitHigh (s : State) : Host.Outcome State Fault Refusal :=
  .next ((s.fillSamples true).complete [])

/-- INIT_LOW (R107): every sample becomes 0. -/
def execInitLow (s : State) : Host.Outcome State Fault Refusal :=
  .next ((s.fillSamples false).complete [])

/-- TO_BYTES (R108): emit the eight channels of each of the first `n'` indices as one byte. -/
def execToBytes (s : State) : Host.Outcome State Fault Refusal :=
  .next ((s.recordReads (allChannelCells s.count)).complete ((List.range s.count).map (fun j => s.packedByte j)))

/-- FROM_BYTES (R109): write the eight channels of each of the first `n'` indices from one byte. -/
def execFromBytes (s : State) : Host.Outcome State Fault Refusal :=
  requireInput s.count s (.next ((s.unpackBytes (s.din.take s.count)).complete []))

/-- SET_CHANNEL_BITSTREAM (R110): write the first `n'` samples of one channel. -/
def execSetChannelBitstream (c : Nat) (s : State) : Host.Outcome State Fault Refusal :=
  requireInput s.count s (requireRange (channelOk c) s
    (.next ((s.writeSamples c 0 ((s.din.take s.count).map byteSample)).complete [])))

/-- GET_CHANNEL_BITSTREAM (R111): emit the first `n'` samples of one channel, one byte each. -/
def execGetChannelBitstream (c : Nat) (s : State) : Host.Outcome State Fault Refusal :=
  requireRange (channelOk c) s
    (.next ((s.recordReads (channelCells c s.count)).complete ((s.channelSamples c s.count).map sampleByte)))

/-- SET_CLOCK_PATTERN (R112): 0 at even indices and 1 at odd ones, over the whole channel. -/
def execSetClockPattern (c : Nat) (s : State) : Host.Outcome State Fault Refusal :=
  requireRange (channelOk c) s
    (.next ((s.writeSamples c 0 (clockBits 1024)).complete []))

end Sys2Proof.Machine
end

