-- ==== Sys2Proof/Machine/Dispatch.lean ====
section
/-! DEFINITION. The meaning of each command, one arm per row of spec/opcode_table.json, each a direct call of its own
definition. -/

namespace Sys2Proof.Machine

def exec (i : Instr) (s : State) : Host.Outcome State Fault Refusal :=
  match i with
  | .initHigh => Sys2Proof.Machine.execInitHigh s
  | .initLow => Sys2Proof.Machine.execInitLow s
  | .toBytes => Sys2Proof.Machine.execToBytes s
  | .fromBytes => Sys2Proof.Machine.execFromBytes s
  | .setChannelBitstream c => Sys2Proof.Machine.execSetChannelBitstream c s
  | .getChannelBitstream c => Sys2Proof.Machine.execGetChannelBitstream c s
  | .setClockPattern c => Sys2Proof.Machine.execSetClockPattern c s
  | .intToBits len => Sys2Proof.Machine.execIntToBits len s
  | .bitsToInt len => Sys2Proof.Machine.execBitsToInt len s
  | .fieldGet lo len => Sys2Proof.Machine.execFieldGet lo len s
  | .fieldSet lo len => Sys2Proof.Machine.execFieldSet lo len s
  | .pktClear => Sys2Proof.Machine.execPktClear s
  | .getPacketType => Sys2Proof.Machine.execGetPacketType s
  | .setPacketType => Sys2Proof.Machine.execSetPacketType s
  | .getChipid => Sys2Proof.Machine.execGetChipid s
  | .setChipid => Sys2Proof.Machine.execSetChipid s
  | .getChannelid => Sys2Proof.Machine.execGetChannelid s
  | .setChannelid => Sys2Proof.Machine.execSetChannelid s
  | .getTimestamp => Sys2Proof.Machine.execGetTimestamp s
  | .setTimestamp => Sys2Proof.Machine.execSetTimestamp s
  | .getDataword => Sys2Proof.Machine.execGetDataword s
  | .setDataword => Sys2Proof.Machine.execSetDataword s
  | .getFifoHalf => Sys2Proof.Machine.execGetFifoHalf s
  | .setFifoHalf => Sys2Proof.Machine.execSetFifoHalf s
  | .getFifoFull => Sys2Proof.Machine.execGetFifoFull s
  | .setFifoFull => Sys2Proof.Machine.execSetFifoFull s
  | .getRegister => Sys2Proof.Machine.execGetRegister s
  | .setRegister => Sys2Proof.Machine.execSetRegister s
  | .getRegisterData => Sys2Proof.Machine.execGetRegisterData s
  | .setRegisterData => Sys2Proof.Machine.execSetRegisterData s
  | .getTestCounter => Sys2Proof.Machine.execGetTestCounter s
  | .setTestCounter => Sys2Proof.Machine.execSetTestCounter s
  | .getParity => Sys2Proof.Machine.execGetParity s
  | .forceSetParity => Sys2Proof.Machine.execForceSetParity s
  | .computeParity => Sys2Proof.Machine.execComputeParity s
  | .setParity => Sys2Proof.Machine.execSetParity s
  | .checkParity => Sys2Proof.Machine.execCheckParity s
  | .embed c => Sys2Proof.Machine.execEmbed c s
  | .extract c => Sys2Proof.Machine.execExtract c s

end Sys2Proof.Machine
end

