-- ==== Sys2Proof/Machine/Step.lean ====
section
/-! DEFINITION. One step: the block takes the host's next interaction and does it whole (spec/20_memory.md R57, R61,
spec/60_exceptions.md R290). -/

namespace Sys2Proof.Machine

/-- One host interaction. A command word that decodes runs its command; one that does not raises `IllegalCommand`
(spec/30_encoding.md R74). With nothing pending the block is idle and nothing changes. -/
def step (s : State) : Host.Outcome State Fault Refusal :=
  match s.pending with
  | [] => .next s
  | .writeArg v :: _ => .next (s.popInteraction.hostWriteArg v)
  | .readResult :: _ => .next s.popInteraction.hostReadResult
  | .readStatus :: _ => .next s.popInteraction.hostReadStatus
  | .reset :: _ => .next s.popInteraction.hostReset
  | .command w din :: _ =>
    match Sys2Proof.decode w with
    | .ok i => exec i (s.beginCommand din)
    | .error _ => .next (s.beginCommand din).illegalCommand

/-- `s` with the command word `w` as the host's next interaction. Its input stream is as many zero bytes as any command
could need at `s`: `min(ARG, 1024)` for a counted one, 63 for the longest `LEN` (notes/assumptions/3.md). -/
def State.withFetchWord (s : State) (nbits w : Nat) : State :=
  { s with pending := .command (BitVec.ofNat 32 (w % 2 ^ nbits)) (List.replicate (max s.count 63) 0) :: s.pending }

end Sys2Proof.Machine
end

