-- ==== Sys2Proof/Machine/Assembler.lean ====
section
/-! DEFINITION. The statements of host programs and their expansion into host interactions (spec/30_encoding.md R81 to R84).
A statement is taken as parsed: how its text is spelled is notation only (spec/92_eei_decisions.md D27). -/

namespace Sys2Proof.Machine

/-- One statement of a host program. A command's `arg` is the `#v` of the pseudo form and its `din` the bytes in braces. -/
inductive Statement where
  | wrarg (v : Word)
  | command (i : Instr) (arg : Option Word) (din : List Byte)
  | rdresult
  | rdstatus
  /-- The command's `DOUT` comes back with the command itself, so this statement is no interaction of its own (R290). -/
  | rdout
  | cfgpkt (type chip addr data : Word)
  | send (c : Nat) (o : Word)
  | recv (c : Nat) (o : Word)
  deriving DecidableEq, Repr

/-- The commands that read `ARG`: as a count, as a value, or as a frame offset (R81). -/
def readsArg : Instr → Bool
  | .toBytes | .fromBytes | .setChannelBitstream _ | .getChannelBitstream _ => true
  | .intToBits _ | .fieldSet _ _ | .forceSetParity => true
  | .setPacketType | .setChipid | .setChannelid | .setTimestamp | .setDataword => true
  | .setFifoHalf | .setFifoFull | .setRegister | .setRegisterData | .setTestCounter => true
  | .embed _ | .extract _ => true
  | .initHigh | .initLow | .setClockPattern _ | .bitsToInt _ | .fieldGet _ _ | .pktClear => false
  | .getPacketType | .getChipid | .getChannelid | .getTimestamp | .getDataword => false
  | .getFifoHalf | .getFifoFull | .getRegister | .getRegisterData | .getTestCounter => false
  | .getParity | .computeParity | .setParity | .checkParity => false

/-- A command's transaction, for a command whose operands fit their fields; the assembler refuses any other (R82). -/
def assembleCommand (i : Instr) (din : List Byte) : Option (List Interaction) :=
  if WellFormed i then some [.command (encode i) din] else none

/-- `MNEMONIC …, #v`: `WRARG v` then the command (R83). -/
def assembleWithArg (i : Instr) (v : Word) (din : List Byte) : Option (List Interaction) :=
  if readsArg i then (assembleCommand i din).map (.writeArg v :: ·) else none

/-- Several expansions in order, refused if one of them is. -/
def assembleSeq : List (Option (List Interaction)) → Option (List Interaction)
  | [] => some []
  | none :: _ => none
  | some a :: l => (assembleSeq l).map (a ++ ·)

/-- The interactions a statement stands for (R82, R83). -/
def assemble : Statement → Option (List Interaction)
  | .wrarg v => some [.writeArg v]
  | .command i none din => assembleCommand i din
  | .command i (some v) din => assembleWithArg i v din
  | .rdresult => some [.readResult]
  | .rdstatus => some [.readStatus]
  | .rdout => some []
  | .cfgpkt type chip addr data => assembleSeq [
      assembleCommand .pktClear [],
      assembleWithArg .setPacketType type [],
      assembleWithArg .setChipid chip [],
      assembleWithArg .setRegister addr [],
      assembleWithArg .setRegisterData data [],
      assembleCommand .setParity []]
  | .send c o => assembleSeq [assembleCommand .setParity [], assembleWithArg (.embed c) o []]
  | .recv c o => assembleSeq [assembleWithArg (.extract c) o [], assembleCommand .checkParity []]

/-- A host program: its statements in order (spec/60_exceptions.md R293). -/
def assembleProgram (p : List Statement) : Option (List Interaction) := assembleSeq (p.map assemble)

end Sys2Proof.Machine
end

