-- ==== Sys2Proof/Safety.lean ====
section
/-! DEFINITION. What a well-kept state is, and what a run that reads no unwritten sample is, in the terms the statements
use. -/

namespace Sys2Proof.Machine

/-- The rules between fields that every step keeps: the sample store is in its canonical form and every stored value is
0 or 1 (spec/10_state.md R21); `STATUS` holds a code 0 to 2 and reads 0 above it (R26); the parameters are legal
(spec/00_scope.md R6); no input stream is kept between commands (R27). -/
def State.Inv (s : State) : Prop :=
  Memory.wf s.samples = true ∧ s.status.toNat ≤ 2 ∧ s.build.legal = true ∧ s.din = []

/-- Every sample of the store has been written since reset (spec/70_reset_and_hazards.md R302). -/
def State.storeWritten (s : State) : Prop := ∀ c j, c < 8 → j < 1024 → s.sampleValid c j = true

/-- The run so far has read no sample that nothing had written (spec/60_exceptions.md R279). -/
def State.readsDefined (s : State) : Prop := s.uninitSampleRead = false

end Sys2Proof.Machine
end

