-- ==== Sys2Proof/Certificates/Slice0/Obligations.lean ====
section
/-! DEFINITION. The statements for the provers. They come from the numbered rules of spec/; each docstring names the rule.
The words they are written with stand first. -/

namespace Sys2Proof.Claims

open Sys2Proof.Machine

/-- `s` at the end of a command that reported `code` with the output stream `dout` and changed nothing else: `STATUS` is
written, the input stream is gone, the host has `dout`. -/
def ended (s : State) (code : Word) (dout : List Byte) : State :=
  { s with status := code, din := [], responses := s.responses ++ [.dout dout] }

/-- In the sample memory `m` the cell `S[c][j]` is written and holds `b`, in the byte form `0x00` or `0x01`. -/
def stored (m : List Host.Cell) (c j : Nat) (b : Bool) : Prop :=
  Memory.read m (sampleAddress c j) = some (if b then 0x01 else 0x00)

/-- Every address of the sample memory that is not the address of a cell in `written` reads in `m` as in `s`. -/
def keepsOthers (s : State) (m : List Host.Cell) (written : Nat → Nat → Prop) : Prop :=
  ∀ a, (∀ c j, written c j → a ≠ sampleAddress c j) → Memory.read m a = Memory.read s.samples a

/-- `min(ARG, 1024)`. -/
def clamped (s : State) : Nat := min s.arg.toNat 1024

/-- The number of input items a command needs (spec/40_sample_buffer.md R103); a command that takes no input needs none. -/
def need (s : State) : Instr → Nat
  | .fromBytes => clamped s
  | .setChannelBitstream _ => clamped s
  | .bitsToInt len => len
  | _ => 0

/-- The causes of `RangeError` (spec/60_exceptions.md R273). -/
def rangeCause (s : State) : Instr → Prop
  | .setChannelBitstream c => 8 ≤ c
  | .getChannelBitstream c => 8 ≤ c
  | .setClockPattern c => 8 ≤ c
  | .intToBits len => 32 < len
  | .bitsToInt len => 32 < len
  | .fieldGet lo len => 32 < len ∨ 54 < lo + len
  | .fieldSet lo len => 32 < len ∨ 54 < lo + len
  | .embed c => 8 ≤ c ∨ 1024 < s.arg.toNat + 56 * s.build.bitsPerBaud.samples
  | .extract c => 8 ≤ c ∨ 1024 < s.arg.toNat + 56 * s.build.bitsPerBaud.samples
  | _ => False

/-- A named field of the packet with a getter and a setter at one range of offsets (spec/42_packet_fields.md R170), and
the command words of the two (spec/30_encoding.md R80). -/
structure NamedField where
  getter : Instr
  setter : Instr
  lo : Nat
  width : Nat
  getWord : Word
  setWord : Word
  deriving DecidableEq, Repr

/-- The ten such fields, the parity bit among them; the test counter has two ranges and its own statements. -/
def namedFields : List NamedField := [
  ⟨.getPacketType, .setPacketType, 0, 2, 0x40000000, 0x44000000⟩,
  ⟨.getChipid, .setChipid, 2, 8, 0x48000000, 0x4C000000⟩,
  ⟨.getChannelid, .setChannelid, 10, 7, 0x50000000, 0x54000000⟩,
  ⟨.getTimestamp, .setTimestamp, 17, 24, 0x58000000, 0x5C000000⟩,
  ⟨.getDataword, .setDataword, 41, 10, 0x60000000, 0x64000000⟩,
  ⟨.getFifoHalf, .setFifoHalf, 51, 1, 0x68000000, 0x6C000000⟩,
  ⟨.getFifoFull, .setFifoFull, 52, 1, 0x70000000, 0x74000000⟩,
  ⟨.getRegister, .setRegister, 10, 8, 0x78000000, 0x7C000000⟩,
  ⟨.getRegisterData, .setRegisterData, 18, 8, 0x80000000, 0x84000000⟩,
  ⟨.getParity, .forceSetParity, 53, 1, 0x90000000, 0x94000000⟩]

/-- The getter commands, the only ones that write `RESULT` (spec/10_state.md R25). -/
def isGetter : Instr → Bool
  | .fieldGet _ _ | .bitsToInt _ | .computeParity | .checkParity => true
  | .getPacketType | .getChipid | .getChannelid | .getTimestamp | .getDataword => true
  | .getFifoHalf | .getFifoFull | .getRegister | .getRegisterData | .getTestCounter | .getParity => true
  | _ => false

/-- The number of 1-bits among offsets `0..n-1`. -/
def ones (p : Packet) (n : Nat) : Nat := ((List.range n).filter (fun i => p.getLsbD i)).length

/-- Logical bit `t` of a framed packet: start 0, then offsets 0 to 53, then stop 1 (spec/44_framing.md R250). -/
def logicalBit (p : Packet) : Nat → Bool
  | 0 => false
  | t + 1 => if t = 54 then true else p.getLsbD t

/-- The opcodes no command has (spec/30_encoding.md R75). -/
def reservedOpcodes : List Nat :=
  [0x00, 0x0D, 0x0E, 0x0F, 0x29, 0x2A, 0x2B, 0x2C, 0x2D, 0x2E, 0x2F] ++
  [0x32, 0x33, 0x34, 0x35, 0x36, 0x37, 0x38, 0x39, 0x3A, 0x3B, 0x3C, 0x3D, 0x3E, 0x3F]

/-- The mnemonic of a command's row of the opcode map (spec/30_encoding.md R80). -/
def mnemonic : Instr → String
  | .initHigh => "INIT_HIGH"
  | .initLow => "INIT_LOW"
  | .toBytes => "TO_BYTES"
  | .fromBytes => "FROM_BYTES"
  | .setChannelBitstream _ => "SET_CHANNEL_BITSTREAM"
  | .getChannelBitstream _ => "GET_CHANNEL_BITSTREAM"
  | .setClockPattern _ => "SET_CLOCK_PATTERN"
  | .intToBits _ => "INT_TO_BITS"
  | .bitsToInt _ => "BITS_TO_INT"
  | .fieldGet _ _ => "FIELD_GET"
  | .fieldSet _ _ => "FIELD_SET"
  | .pktClear => "PKT_CLEAR"
  | .getPacketType => "GET_PACKET_TYPE"
  | .setPacketType => "SET_PACKET_TYPE"
  | .getChipid => "GET_CHIPID"
  | .setChipid => "SET_CHIPID"
  | .getChannelid => "GET_CHANNELID"
  | .setChannelid => "SET_CHANNELID"
  | .getTimestamp => "GET_TIMESTAMP"
  | .setTimestamp => "SET_TIMESTAMP"
  | .getDataword => "GET_DATAWORD"
  | .setDataword => "SET_DATAWORD"
  | .getFifoHalf => "GET_FIFO_HALF"
  | .setFifoHalf => "SET_FIFO_HALF"
  | .getFifoFull => "GET_FIFO_FULL"
  | .setFifoFull => "SET_FIFO_FULL"
  | .getRegister => "GET_REGISTER"
  | .setRegister => "SET_REGISTER"
  | .getRegisterData => "GET_REGISTER_DATA"
  | .setRegisterData => "SET_REGISTER_DATA"
  | .getTestCounter => "GET_TEST_COUNTER"
  | .setTestCounter => "SET_TEST_COUNTER"
  | .getParity => "GET_PARITY"
  | .forceSetParity => "FORCE_SET_PARITY"
  | .computeParity => "COMPUTE_PARITY"
  | .setParity => "SET_PARITY"
  | .checkParity => "CHECK_PARITY"
  | .embed _ => "EMBED"
  | .extract _ => "EXTRACT"

/-- The outcome of a command, with its next state changed by `f`. -/
def mapNext (f : State → State) : Host.Outcome State Fault Refusal → Host.Outcome State Fault Refusal
  | .next t => .next (f t)
  | .fault r => .fault r
  | .refused r => .refused r

end Sys2Proof.Claims

open Sys2Proof Sys2Proof.Machine Sys2Proof.Claims

/-! ## Encoding -/

/-- The decoder reads every well-formed command back from its word (spec/30_encoding.md §2 to §6). -/
def Obligations.DecodeOfEncode : Prop :=
  ∀ i : Instr, WellFormed i = true → decode (encode i) = .ok i

/-- A legal word is the word of exactly the command it decodes to, and that command's operands fit their fields. -/
def Obligations.EncodeOfDecode : Prop :=
  ∀ (w : Word) (i : Instr), decode w = .ok i → WellFormed i = true ∧ encode i = w

/-- A word is legal when some row of the opcode map has `w & mask = match`, and two rows never both match (R74); an illegal
word sets `STATUS` to 2 and changes no other state of the block, with an empty `DOUT` (R74, R272, R277). That the transaction
leaves the host's list with its input stream is the model's choice (notes/assumptions/11.md). -/
def Obligations.CommandWordLegality : Prop :=
  (∀ w : Word, (∃ i, decode w = .ok i) ↔ ∃ r ∈ opcodeMap, w &&& r.mask = r.pattern) ∧
  (∀ (w : Word) (r q : OpcodeRow), r ∈ opcodeMap → q ∈ opcodeMap → w &&& r.mask = r.pattern →
    w &&& q.mask = q.pattern → r = q) ∧
  (∀ (s : State) (w : Word) (din : List Byte) (rest : List Interaction), s.pending = .command w din :: rest →
    (∀ r ∈ opcodeMap, w &&& r.mask ≠ r.pattern) →
    step s = .next (ended { s with pending := rest } 2 []))

/-- R80. The opcode map: 39 rows, and a word whose bits under a row's mask are the row's pattern is a word of that row's
command and of its class; every legal word is such a word of its own command's row. -/
def Obligations.OpcodeMapRows : Prop :=
  opcodeMap.length = 39 ∧
  (∀ r ∈ opcodeMap, ∀ w : Word, w &&& r.mask = r.pattern →
    ∃ i, decode w = .ok i ∧ mnemonic i = r.mnemonic ∧ operandClass i = r.opClass) ∧
  (∀ (w : Word) (i : Instr), decode w = .ok i →
    ∃ r ∈ opcodeMap, r.mnemonic = mnemonic i ∧ r.opClass = operandClass i ∧ w &&& r.mask = r.pattern)

/-- No row matches in exactly two cases: the opcode is reserved, or a bit that the opcode's class does not use is non-zero;
the block then reports `ILLEGAL_COMMAND` and records nothing else (R272, R277). That the transaction leaves the host's list
with its input stream is the model's choice (notes/assumptions/11.md). -/
def Obligations.IllegalCommandCauses : Prop :=
  (∀ w : Word, (∀ r ∈ opcodeMap, w &&& r.mask ≠ r.pattern) ↔
    (w.toNat / 2 ^ 26 ∈ reservedOpcodes ∨
      ∃ r ∈ opcodeMap, r.pattern.toNat / 2 ^ 26 = w.toNat / 2 ^ 26 ∧ w &&& r.mask ≠ r.pattern)) ∧
  (∀ w : Word, decode w = .error .reservedOpcode ↔ w.toNat / 2 ^ 26 ∈ reservedOpcodes) ∧
  (∀ (s : State) (w : Word) (din : List Byte) (rest : List Interaction) (e : IllegalWord),
    s.pending = .command w din :: rest → decode w = .error e →
    step s = .next (ended { s with pending := rest } 2 []))

/-- Words written out from the spec's encodings, one of each family and each class. -/
def Obligations.WrittenWordsDecode : Prop :=
  decode 0b00001100000000000000000000000000 = .ok .toBytes ∧
  decode 0b00010100000010000000000000000000 = .ok (.setChannelBitstream 2) ∧
  decode 0b00100000000000000000001000000000 = .ok (.intToBits 8) ∧
  decode 0b00101000000000000010001000000000 = .ok (.fieldGet 2 8) ∧
  decode 0b01001100000000000000000000000000 = .ok .setChipid ∧
  decode 0b10011100000000000000000000000000 = .ok .setParity ∧
  decode 0b11000000000001000000000000000000 = .ok (.embed 1) ∧
  decode 0 = .error .reservedOpcode ∧
  decode 0x48000040 = .error .unusedFieldNonZero

/-! ## The machine: one interaction a step, reset, invariants -/

/-- A step runs the decoded command: where the first pending interaction is a command word that decodes, the step is that
command's `exec` at the state with the transaction off the list and its input stream at the block. -/
def Obligations.StepRunsDecodedCommand : Prop :=
  ∀ (s : State) (w : Word) (din : List Byte) (rest : List Interaction) (i : Instr),
    s.pending = .command w din :: rest → decode w = .ok i →
    step s = exec i { s with pending := rest, din := din }

/-- What each host interaction does and gives back (R290); the command row is a legal command's `exec`, or an illegal word's
error, and either gives back one `DOUT`. The model's choices in it: the host's list, the responses and the counter of resets
are the model's own fields (notes/assumptions/2.md and 4.md); an illegal word's transaction leaves the list with its input
(11.md); a reset keeps the record of unwritten reads (7.md), the list, the responses and the parameters (13.md). -/
def Obligations.HostInteractions : Prop :=
  ∀ (s : State) (rest : List Interaction),
    (∀ v, s.pending = .writeArg v :: rest → step s = .next { s with pending := rest, arg := v }) ∧
    (∀ w din i, s.pending = .command w din :: rest → decode w = .ok i →
      step s = exec i { s with pending := rest, din := din }) ∧
    (∀ w din e, s.pending = .command w din :: rest → decode w = .error e →
      step s = .next (ended { s with pending := rest } 2 [])) ∧
    (∀ w din t, s.pending = .command w din :: rest → step s = .next t →
      ∃ dout, t.responses = s.responses ++ [.dout dout]) ∧
    (s.pending = .readResult :: rest →
      step s = .next { s with pending := rest, responses := s.responses ++ [.result s.result] }) ∧
    (s.pending = .readStatus :: rest →
      step s = .next { s with pending := rest, responses := s.responses ++ [.status s.status] }) ∧
    (s.pending = .reset :: rest →
      step s = .next { s with pending := rest, samples := [], packet := 0, arg := 0, result := 0, status := 0, din := [],
                              resetNumber := s.resetNumber + 1 })

/-- The model's choice (notes/assumptions/2.md): with nothing pending the block is idle and nothing changes. -/
def Obligations.IdleWithoutInteraction : Prop :=
  ∀ s : State, s.pending = [] → step s = .next s

/-- R33. The values after reset, at the model's first state and after a reset interaction at any state: `P`, `ARG`, `RESULT`
and `STATUS` are 0 and no sample is valid. Of the contents of `S` nothing is said. -/
def Obligations.ResetValues : Prop :=
  (State.reset.packet = 0 ∧ State.reset.arg = 0 ∧ State.reset.result = 0 ∧ State.reset.status = 0 ∧
    ∀ c j, State.reset.sampleValid c j = false) ∧
  (∀ (s : State) (rest : List Interaction), s.pending = .reset :: rest → ∃ t, step s = .next t ∧
    t.packet = 0 ∧ t.arg = 0 ∧ t.result = 0 ∧ t.status = 0 ∧ ∀ c j, t.sampleValid c j = false)

/-- The invariant holds at reset. -/
def Obligations.ResetMeetsInv : Prop := State.reset.Inv

/-- Every step keeps the invariant: the sample store stays in its canonical form with every stored value 0 or 1 (R21),
`STATUS` holds a code 0 to 2 with its reserved bits 0 (R26), the parameters stay legal (R6), and no input stream is kept
(R27). -/
def Obligations.StepKeepsInv : Prop :=
  ∀ s t : State, s.Inv → step s = .next t → t.Inv

/-- A step takes one interaction off the host's list, in order, answers it with at most one response after the earlier
ones, and changes no parameter (R29, R61, R290). -/
def Obligations.StepTakesOneInteraction : Prop :=
  ∀ s t : State, step s = .next t →
    t.pending = s.pending.tail ∧ t.build = s.build ∧
    ∃ r, t.responses = s.responses ++ r ∧ r.length ≤ 1 ∧
      (∀ w din rest, s.pending = .command w din :: rest → ∃ dout, r = [.dout dout])

/-- R24. Commands and host reads leave `ARG` as it is; the host's write puts its value there. -/
def Obligations.ArgIsTheHosts : Prop :=
  (∀ (i : Instr) (s t : State), exec i s = .next t → t.arg = s.arg) ∧
  (∀ (s : State) (rest : List Interaction), (s.pending = .readResult :: rest ∨ s.pending = .readStatus :: rest) →
    ∃ t, step s = .next t ∧ t.arg = s.arg) ∧
  (∀ (s : State) (v : Word) (rest : List Interaction), s.pending = .writeArg v :: rest →
    ∃ t, step s = .next t ∧ t.arg = v)

/-- `ARG` is read by the commands R81 lists and by no other: any other command does the same whatever `ARG` holds. -/
def Obligations.ArgReadOnlyWhereListed : Prop :=
  ∀ (i : Instr) (s : State) (v : Word), readsArg i = false →
    exec i { s with arg := v } = mapNext (fun t => { t with arg := v }) (exec i s)

/-- R25. Only a getter writes `RESULT`, and only where it succeeds; its value is zero-extended, so a field of `width` bits
gives a number below `2 ^ width`. -/
def Obligations.ResultOnlyByGetters : Prop :=
  (∀ (i : Instr) (s t : State), exec i s = .next t → isGetter i = false → t.result = s.result) ∧
  (∀ (i : Instr) (s t : State), exec i s = .next t → t.status ≠ 0 → t.result = s.result) ∧
  (∀ f ∈ namedFields, ∀ s t : State, exec f.getter s = .next t → t.result.toNat < 2 ^ f.width)

/-- R26. Every command writes `CODE`: 0 when it completes, else its error's code, 1 or 2; the reserved bits are 0. Host
reads and `ARG` writes leave `STATUS` as it is. -/
def Obligations.StatusAfterInteraction : Prop :=
  (∀ (i : Instr) (s t : State), exec i s = .next t → t.status = 0 ∨ t.status = 1) ∧
  (∀ (s t : State) (w : Word) (din : List Byte) (rest : List Interaction) (e : IllegalWord),
    s.pending = .command w din :: rest → decode w = .error e → step s = .next t → t.status = 2) ∧
  (∀ (s t : State) (w : Word) (din : List Byte) (rest : List Interaction), s.pending = .command w din :: rest →
    step s = .next t → t.status.extractLsb' 2 30 = 0 ∧ (t.statusCode = 0 ∨ t.statusCode = 1 ∨ t.statusCode = 2)) ∧
  (∀ (s t : State) (rest : List Interaction),
    (s.pending = .readResult :: rest ∨ s.pending = .readStatus :: rest ∨ ∃ v, s.pending = .writeArg v :: rest) →
    step s = .next t → t.status = s.status)

/-- Only EMBED and EXTRACT depend on the build parameters, and they not on `PTYPE_CODE` (R6, R29). -/
def Obligations.BuildMattersOnlyToFraming : Prop :=
  (∀ (i : Instr) (s : State) (b : Params), (∀ c, i ≠ .embed c) → (∀ c, i ≠ .extract c) →
    exec i { s with build := b } = mapNext (fun t => { t with build := b }) (exec i s)) ∧
  (∀ (i : Instr) (s : State) (k : PacketTypeCode),
    exec i { s with build := { s.build with packetTypeCode := k } } =
      mapNext (fun t => { t with build := { t.build with packetTypeCode := k } }) (exec i s))

/-! ## Errors and admission -/

/-- R103. A command is admitted with at least the items it needs; with fewer it has no step, whatever else is wrong with it,
and nothing else stops a command. Items beyond the need are ignored. -/
def Obligations.InputAdmission : Prop :=
  (∀ (i : Instr) (s : State), exec i s = .fault .inputNotAdmitted ↔ s.din.length < need s i) ∧
  (∀ (i : Instr) (s : State), need s i ≤ s.din.length → ∃ t, exec i s = .next t) ∧
  (∀ (i : Instr) (s : State) (items extra : List Byte), need s i ≤ items.length →
    exec i { s with din := items ++ extra } = exec i { s with din := items })

/-- R273. An admitted command reports `RANGE_ERROR` for exactly the causes listed there, and then does nothing else. -/
def Obligations.RangeErrorCauses : Prop :=
  ∀ (i : Instr) (s : State), need s i ≤ s.din.length →
    (exec i s = .next (ended s 1 []) ↔ rangeCause s i)

/-- R276. Every legal, admitted command with operands in range completes with `OK`. -/
def Obligations.NothingElseFails : Prop :=
  ∀ (i : Instr) (s : State), need s i ≤ s.din.length → ¬ rangeCause s i → ∃ t, exec i s = .next t ∧ t.status = 0

/-- R277. A command that ends with an error code leaves `S`, `P`, `ARG` and `RESULT` as they were, outputs nothing and sets
`STATUS` to the code: 1 for a legal command; and a step on an illegal word does the same with the code 2. -/
def Obligations.ErrorChangesOnlyStatus : Prop :=
  (∀ (i : Instr) (s t : State), exec i s = .next t → t.status ≠ 0 → t = ended s 1 []) ∧
  (∀ (s t : State) (w : Word) (din : List Byte) (rest : List Interaction), s.pending = .command w din :: rest →
    step s = .next t → t.status ≠ 0 →
    t.samples = s.samples ∧ t.packet = s.packet ∧ t.arg = s.arg ∧ t.result = s.result ∧
      t.uninitSampleRead = s.uninitSampleRead ∧ t.responses = s.responses ++ [.dout []]) ∧
  (∀ (s : State) (w : Word) (din : List Byte) (rest : List Interaction) (e : IllegalWord),
    s.pending = .command w din :: rest → decode w = .error e → ∃ t, step s = .next t ∧ t.status = 2)

/-- The order of the checks: legality, then input admission, then the range checks (R275). That an illegal word's transaction
leaves the host's list with its input stream is the model's choice (notes/assumptions/11.md). -/
def Obligations.CheckOrder : Prop :=
  ∀ (s : State) (w : Word) (din : List Byte) (rest : List Interaction), s.pending = .command w din :: rest →
    (∀ e, decode w = .error e → step s = .next (ended { s with pending := rest } 2 [])) ∧
    (∀ i, decode w = .ok i → din.length < need s i → step s = .fault .inputNotAdmitted) ∧
    (∀ i, decode w = .ok i → need s i ≤ din.length → rangeCause s i →
      step s = .next (ended { s with pending := rest } 1 []))

/-- A command issued twice with the same `ARG`, word and input leaves the state it leaves once, but for the second `DOUT`,
which equals the first (R58). That an unwritten cell reads the same twice is the model's choice (notes/assumptions/5.md). -/
def Obligations.CommandsIdempotent : Prop :=
  ∀ (i : Instr) (s t : State), Memory.wf s.samples = true → exec i s = .next t →
    ∃ d, t.responses = s.responses ++ [d] ∧
      exec i { t with din := s.din } = .next { t with responses := t.responses ++ [d] }

/-! ## The record of unwritten reads -/

/-- No command makes a written sample unwritten (R22). -/
def Obligations.CommandsKeepSamplesValid : Prop :=
  ∀ (i : Instr) (s t : State) (c j : Nat), exec i s = .next t → s.sampleValid c j = true → t.sampleValid c j = true

/-- The record `UninitSampleRead` is never cleared, by a reset no more than by a command (R279; that a reset keeps it is the
model's choice, notes/assumptions/7.md). -/
def Obligations.UninitRecordSticky : Prop :=
  ∀ s t : State, step s = .next t → s.uninitSampleRead = true → t.uninitSampleRead = true

/-- INIT_HIGH, INIT_LOW and FROM_BYTES with a count of 1024 write every sample of the store (R279, R302). -/
def Obligations.FillingWritesTheStore : Prop :=
  ∀ s t : State,
    (exec .initHigh s = .next t ∨ exec .initLow s = .next t ∨ (1024 ≤ s.arg.toNat ∧ exec .fromBytes s = .next t)) →
    t.storeWritten

/-- Once every sample is written, no command records an unwritten read, and every sample stays written, whatever input the
command carries (R279). The same of a step whose interaction is no reset; it keeps the premise on the parameters too, so
that it can be applied again at the next step. -/
def Obligations.WrittenStoreNeverRecords : Prop :=
  (∀ (i : Instr) (s t : State), s.build.legal = true → s.storeWritten → exec i s = .next t →
    t.storeWritten ∧ t.uninitSampleRead = s.uninitSampleRead) ∧
  (∀ s t : State, s.build.legal = true → s.storeWritten → (∀ rest, s.pending ≠ .reset :: rest) → step s = .next t →
    t.build.legal = true ∧ t.storeWritten ∧ t.uninitSampleRead = s.uninitSampleRead)

/-! ## The sample store and the multiplexer -/

/-- R106, R107. INIT_HIGH and INIT_LOW write every one of the 8 × 1024 samples, and nothing else. -/
def Obligations.InitFillsTheStore : Prop :=
  decode 0x04000000 = .ok .initHigh ∧ decode 0x08000000 = .ok .initLow ∧ ∀ s : State,
    (∃ m, exec .initHigh s = .next { ended s 0 [] with samples := m } ∧
      (∀ c j, c < 8 → j < 1024 → stored m c j true) ∧ keepsOthers s m (fun c j => c < 8 ∧ j < 1024)) ∧
    (∃ m, exec .initLow s = .next { ended s 0 [] with samples := m } ∧
      (∀ c j, c < 8 → j < 1024 → stored m c j false) ∧ keepsOthers s m (fun c j => c < 8 ∧ j < 1024))

/-- R108. TO_BYTES emits `min(ARG, 1024)` bytes, bit `k` of byte `j` being channel `k` at index `j`, and changes no state but
the model's record of an unwritten read. -/
def Obligations.ToBytesPacksChannels : Prop :=
  decode 0x0C000000 = .ok .toBytes ∧ ∀ s : State, ∃ bytes record,
    exec .toBytes s = .next { ended s 0 bytes with uninitSampleRead := record } ∧
    bytes.length = clamped s ∧
    (∀ j b, bytes[j]? = some b → ∀ k < 8, b.getLsbD k = s.sample k j) ∧
    (record = true ↔ s.uninitSampleRead = true ∨ ∃ k j, k < 8 ∧ j < clamped s ∧ s.sampleValid k j = false)

/-- R109. FROM_BYTES, with enough input, writes the eight channels at each index below `min(ARG, 1024)` from the bits of that
index's byte, and nothing else; with less it is not admitted. -/
def Obligations.FromBytesUnpacksChannels : Prop :=
  decode 0x10000000 = .ok .fromBytes ∧ ∀ s : State,
    (clamped s ≤ s.din.length → ∃ m, exec .fromBytes s = .next { ended s 0 [] with samples := m } ∧
      (∀ j b, j < clamped s → s.din[j]? = some b → ∀ c < 8, stored m c j (b.getLsbD c)) ∧
      keepsOthers s m (fun c j => c < 8 ∧ j < clamped s)) ∧
    (s.din.length < clamped s → exec .fromBytes s = .fault .inputNotAdmitted)

/-- R110. SET_CHANNEL_BITSTREAM writes the first `min(ARG, 1024)` samples of its channel, a non-zero byte as 1, and nothing
else; a channel of 8 or more is a range error. -/
def Obligations.SetChannelBitstreamWrites : Prop :=
  (∀ c ≤ 255, decode ((0x14000000 : Word) ||| BitVec.ofNat 32 c <<< 18) = .ok (.setChannelBitstream c)) ∧
  ∀ (s : State) (c : Nat), clamped s ≤ s.din.length →
    (c < 8 → ∃ m, exec (.setChannelBitstream c) s = .next { ended s 0 [] with samples := m } ∧
      (∀ j b, j < clamped s → s.din[j]? = some b → stored m c j (b != 0)) ∧
      keepsOthers s m (fun c' j => c' = c ∧ j < clamped s)) ∧
    (8 ≤ c → exec (.setChannelBitstream c) s = .next (ended s 1 []))

/-- R111. GET_CHANNEL_BITSTREAM emits the first `min(ARG, 1024)` samples of its channel, one byte each, and changes no state
but the model's record of an unwritten read; a channel of 8 or more is a range error. -/
def Obligations.GetChannelBitstreamEmits : Prop :=
  (∀ c ≤ 255, decode ((0x18000000 : Word) ||| BitVec.ofNat 32 c <<< 18) = .ok (.getChannelBitstream c)) ∧
  ∀ (s : State) (c : Nat),
    (c < 8 → ∃ bytes record,
      exec (.getChannelBitstream c) s = .next { ended s 0 bytes with uninitSampleRead := record } ∧
      bytes.length = clamped s ∧
      (∀ j b, bytes[j]? = some b → b = if s.sample c j then 0x01 else 0x00) ∧
      (record = true ↔ s.uninitSampleRead = true ∨ ∃ j, j < clamped s ∧ s.sampleValid c j = false)) ∧
    (8 ≤ c → exec (.getChannelBitstream c) s = .next (ended s 1 []))

/-- R112. SET_CLOCK_PATTERN writes 0 at even and 1 at odd indices over its whole channel, and nothing else; a channel of 8
or more is a range error. -/
def Obligations.SetClockPatternWrites : Prop :=
  (∀ c ≤ 255, decode ((0x1C000000 : Word) ||| BitVec.ofNat 32 c <<< 18) = .ok (.setClockPattern c)) ∧
  ∀ (s : State) (c : Nat),
    (c < 8 → ∃ m, exec (.setClockPattern c) s = .next { ended s 0 [] with samples := m } ∧
      (∀ j < 1024, stored m c j (decide (j % 2 = 1))) ∧ keepsOthers s m (fun c' j => c' = c ∧ j < 1024)) ∧
    (8 ≤ c → exec (.setClockPattern c) s = .next (ended s 1 []))

/-- FROM_BYTES is the complement of TO_BYTES: the bytes TO_BYTES emits, given back to FROM_BYTES with the same count, leave
every sample of the store as it was (R108, R109). For an unwritten cell it rests on the model's choice of
notes/assumptions/5.md. -/
def Obligations.FromBytesOfToBytes : Prop :=
  ∀ (s t : State) (bytes : List Byte), exec .toBytes s = .next t → t.responses = s.responses ++ [.dout bytes] →
    ∃ u, exec .fromBytes { t with din := bytes } = .next u ∧ ∀ c j, c < 8 → j < 1024 → u.sample c j = s.sample c j

/-! ## The bitfield decoder -/

/-- R142. The two conversions are inverse: a value comes back truncated to `len` bits, a bit sequence comes back itself. -/
def Obligations.ConversionsInverse : Prop :=
  (∀ v len : Nat, v < 2 ^ 32 → len ≤ 32 → bitsToInt (intToBits v len) = v &&& (2 ^ len - 1)) ∧
  (∀ (b : List Bool) (len : Nat), len ≤ 32 → b.length = len → intToBits (bitsToInt b) len = b)

/-- R144. INT_TO_BITS emits bits 0 to `len - 1` of `ARG`, one byte each; a length above 32 is a range error. -/
def Obligations.IntToBitsEmits : Prop :=
  (∀ len ≤ 63, decode ((0x20000000 : Word) ||| BitVec.ofNat 32 len <<< 6) = .ok (.intToBits len)) ∧
  ∀ (s : State) (len : Nat),
    (len ≤ 32 → ∃ bytes, exec (.intToBits len) s = .next (ended s 0 bytes) ∧ bytes.length = len ∧
      ∀ i < len, bytes[i]? = some (if s.arg.getLsbD i then 0x01 else 0x00)) ∧
    (32 < len → exec (.intToBits len) s = .next (ended s 1 []))

/-- R145. BITS_TO_INT gives the number whose bit `i` says whether input item `i` is non-zero; a length above 32 is a range
error; a short input is not admitted. -/
def Obligations.BitsToIntValue : Prop :=
  (∀ len ≤ 63, decode ((0x24000000 : Word) ||| BitVec.ofNat 32 len <<< 6) = .ok (.bitsToInt len)) ∧
  ∀ (s : State) (len : Nat),
    (len ≤ s.din.length → len ≤ 32 → ∃ r, exec (.bitsToInt len) s = .next { ended s 0 [] with result := r } ∧
      ∀ i < 32, r.getLsbD i = (decide (i < len) && (s.din[i]?.getD 0 != 0))) ∧
    (len ≤ s.din.length → 32 < len → exec (.bitsToInt len) s = .next (ended s 1 [])) ∧
    (s.din.length < len → exec (.bitsToInt len) s = .fault .inputNotAdmitted)

/-- R146. FIELD_GET gives the bits of `P` at `lo..lo+len-1`, zero-extended; `P` and all else is unchanged; operands out of
range are a range error. -/
def Obligations.FieldGetReads : Prop :=
  (∀ lo ≤ 63, ∀ len ≤ 63,
    decode ((0x28000000 : Word) ||| BitVec.ofNat 32 lo <<< 12 ||| BitVec.ofNat 32 len <<< 6) = .ok (.fieldGet lo len)) ∧
  ∀ (s : State) (lo len : Nat),
    (len ≤ 32 → lo + len ≤ 54 → ∃ r, exec (.fieldGet lo len) s = .next { ended s 0 [] with result := r } ∧
      ∀ i < 32, r.getLsbD i = (decide (i < len) && s.packet.getLsbD (lo + i))) ∧
    (32 < len ∨ 54 < lo + len → exec (.fieldGet lo len) s = .next (ended s 1 []))

/-- R147. FIELD_SET writes the low `len` bits of `ARG` at `lo..lo+len-1` and no other offset; operands out of range are a
range error. -/
def Obligations.FieldSetWrites : Prop :=
  (∀ lo ≤ 63, ∀ len ≤ 63,
    decode ((0x2C000000 : Word) ||| BitVec.ofNat 32 lo <<< 12 ||| BitVec.ofNat 32 len <<< 6) = .ok (.fieldSet lo len)) ∧
  ∀ (s : State) (lo len : Nat),
    (len ≤ 32 → lo + len ≤ 54 → ∃ p, exec (.fieldSet lo len) s = .next { ended s 0 [] with packet := p } ∧
      ∀ k < 54, p.getLsbD k = if lo ≤ k ∧ k < lo + len then s.arg.getLsbD (k - lo) else s.packet.getLsbD k) ∧
    (32 < len ∨ 54 < lo + len → exec (.fieldSet lo len) s = .next (ended s 1 []))

/-- R148. PKT_CLEAR makes every bit of `P` 0, the parity bit as well. -/
def Obligations.PktClearZeroes : Prop :=
  decode 0x30000000 = .ok .pktClear ∧
  ∀ s : State, exec .pktClear s = .next { ended s 0 [] with packet := 0 }

/-! ## The packet fields -/

/-- An accessor of a named field does what FIELD_GET or FIELD_SET at its offsets does (R172 (a), (b)). -/
def Obligations.AccessorsAreFieldCommands : Prop :=
  ∀ f ∈ namedFields, ∀ s : State,
    exec f.getter s = exec (.fieldGet f.lo f.width) s ∧ exec f.setter s = exec (.fieldSet f.lo f.width) s

/-- R174 to R190, R231. Each getter gives the number its field's offsets hold, bit `k` at offset `lo + k`; all else is
unchanged. -/
def Obligations.NamedGettersRead : Prop :=
  ∀ f ∈ namedFields, decode f.getWord = .ok f.getter ∧
    ∀ s : State, ∃ r, exec f.getter s = .next { ended s 0 [] with result := r } ∧
    r.toNat = s.packet.toNat / 2 ^ f.lo % 2 ^ f.width

/-- R175 to R191, R235. Each setter writes the low bits of `ARG` at exactly its field's offsets; all else is unchanged. -/
def Obligations.NamedSettersWrite : Prop :=
  ∀ f ∈ namedFields, decode f.setWord = .ok f.setter ∧
    ∀ s : State, ∃ p, exec f.setter s = .next { ended s 0 [] with packet := p } ∧
    ∀ k < 54, p.getLsbD k = if f.lo ≤ k ∧ k < f.lo + f.width then s.arg.getLsbD (k - f.lo) else s.packet.getLsbD k

/-- R192. The test counter reads as `low | (high << 12)`, low 12 bits at 41–52, high 4 bits at 10–13. -/
def Obligations.TestCounterReads : Prop :=
  decode 0x88000000 = .ok .getTestCounter ∧
  ∀ s : State, ∃ r, exec .getTestCounter s = .next { ended s 0 [] with result := r } ∧
    r.toNat = s.packet.toNat / 2 ^ 41 % 2 ^ 12 + 2 ^ 12 * (s.packet.toNat / 2 ^ 10 % 2 ^ 4)

/-- R193. Setting the test counter writes bits 0 to 11 of `ARG` at 41–52 and bits 12 to 15 at 10–13, and nothing else. -/
def Obligations.TestCounterWrites : Prop :=
  decode 0x8C000000 = .ok .setTestCounter ∧
  ∀ s : State, ∃ p, exec .setTestCounter s = .next { ended s 0 [] with packet := p } ∧
    ∀ k < 54, p.getLsbD k =
      if 41 ≤ k ∧ k ≤ 52 then s.arg.getLsbD (k - 41)
      else if 10 ≤ k ∧ k ≤ 13 then s.arg.getLsbD (k - 10 + 12)
      else s.packet.getLsbD k

/-- A setter and then its getter give `ARG` truncated to the field's width; for the test counter the width is 16 (R194). -/
def Obligations.SetThenGet : Prop :=
  (∀ f ∈ namedFields, ∀ s : State, ∃ t u, exec f.setter s = .next t ∧ exec f.getter t = .next u ∧
    u.result.toNat = s.arg.toNat % 2 ^ f.width) ∧
  (∀ s : State, ∃ t u, exec .setTestCounter s = .next t ∧ exec .getTestCounter t = .next u ∧
    u.result.toNat = s.arg.toNat % 2 ^ 16)

/-- Two setters of disjoint fields commute: in either order, with the same two values, they leave the same packet; the test
counter's setter commutes with every setter of a field clear of offsets 10–13 and 41–52 (R194). -/
def Obligations.DisjointSettersCommute : Prop :=
  (∀ f ∈ namedFields, ∀ g ∈ namedFields, (f.lo + f.width ≤ g.lo ∨ g.lo + g.width ≤ f.lo) →
    ∀ (s : State) (v w : Word), ∃ t1 t2 u1 u2,
      exec f.setter { s with arg := v } = .next t1 ∧ exec g.setter { t1 with arg := w } = .next t2 ∧
      exec g.setter { s with arg := w } = .next u1 ∧ exec f.setter { u1 with arg := v } = .next u2 ∧
      t2.packet = u2.packet) ∧
  (∀ f ∈ namedFields, (f.lo + f.width ≤ 10 ∨ (14 ≤ f.lo ∧ f.lo + f.width ≤ 41) ∨ 53 ≤ f.lo) →
    ∀ (s : State) (v w : Word), ∃ t1 t2 u1 u2,
      exec f.setter { s with arg := v } = .next t1 ∧ exec .setTestCounter { t1 with arg := w } = .next t2 ∧
      exec .setTestCounter { s with arg := w } = .next u1 ∧ exec f.setter { u1 with arg := v } = .next u2 ∧
      t2.packet = u2.packet)

/-- No accessor of a ConfigWrite or ConfigRead field, nor SET_PARITY, writes offsets 26–52, and no accessor of a Test field,
nor SET_PARITY, writes offsets 14–40 (R173). -/
def Obligations.UnnamedOffsetsKept : Prop :=
  (∀ i ∈ [Instr.setPacketType, .setChipid, .setRegister, .setRegisterData, .setParity, .forceSetParity],
    ∀ s t : State, exec i s = .next t → ∀ k, 26 ≤ k → k ≤ 52 → t.packet.getLsbD k = s.packet.getLsbD k) ∧
  (∀ i ∈ [Instr.setPacketType, .setChipid, .setTestCounter, .setParity, .forceSetParity],
    ∀ s t : State, exec i s = .next t → ∀ k, 14 ≤ k → k ≤ 40 → t.packet.getLsbD k = s.packet.getLsbD k)

/-- Under any legal `PTYPE_CODE`, SET_PACKET_TYPE with a type's code makes the packet that type, and the codes this
hardware takes are Data 0, Test 1, ConfigWrite 2, ConfigRead 3 (R171). -/
def Obligations.PacketTypeNames : Prop :=
  (∀ (s : State) (ty : PacketType), s.build.legal = true → s.arg = (s.build.packetTypeCode.code ty).setWidth 32 →
    ∃ t, exec .setPacketType s = .next t ∧ t.packetType = ty) ∧
  Params.canonical.packetTypeCode.code .data = 0 ∧ Params.canonical.packetTypeCode.code .test = 1 ∧
  Params.canonical.packetTypeCode.code .configWrite = 2 ∧ Params.canonical.packetTypeCode.code .configRead = 3

/-! ## Parity -/

/-- R232. COMPUTE_PARITY gives 1 exactly when the number of 1-bits among offsets 0–52 is even, else 0; `P` is unchanged. -/
def Obligations.ComputeParityValue : Prop :=
  decode 0x98000000 = .ok .computeParity ∧
  ∀ s : State,
    exec .computeParity s = .next { ended s 0 [] with result := if ones s.packet 53 % 2 = 0 then 1 else 0 }

/-- R233. SET_PARITY changes offset 53 alone, to the computed parity; a second one changes nothing more. -/
def Obligations.SetParityWrites : Prop :=
  decode 0x9C000000 = .ok .setParity ∧
  ∀ s : State, ∃ p, exec .setParity s = .next { ended s 0 [] with packet := p } ∧
    (∀ k < 53, p.getLsbD k = s.packet.getLsbD k) ∧ p.getLsbD 53 = decide (ones s.packet 53 % 2 = 0) ∧
    exec .setParity { ended s 0 [] with packet := p } = .next { ended (ended s 0 []) 0 [] with packet := p }

/-- R234. CHECK_PARITY gives 0 when the stored bit equals the computed one and 1 when it does not; a mismatch is no error,
and `P` is unchanged. -/
def Obligations.CheckParityValue : Prop :=
  decode 0xA0000000 = .ok .checkParity ∧
  ∀ s : State,
    exec .checkParity s = .next { ended s 0 [] with
      result := if s.packet.getLsbD 53 = decide (ones s.packet 53 % 2 = 0) then 0 else 1 }

/-- R236. The laws of parity: after SET_PARITY the packet has an odd number of 1-bits and CHECK_PARITY gives 0; with any one
of offsets 0–52 then flipped it gives 1; the computed parity does not depend on offset 53; CHECK_PARITY gives 0 exactly
when the number of 1-bits among offsets 0–53 is odd. -/
def Obligations.ParityLaws : Prop :=
  (∀ s t : State, exec .setParity s = .next t → ones t.packet 54 % 2 = 1 ∧
    ∃ u, exec .checkParity t = .next u ∧ u.result = 0) ∧
  (∀ (s t : State) (q : Packet) (i : Nat), exec .setParity s = .next t → i < 53 →
    (∀ k < 54, q.getLsbD k = if k = i then !t.packet.getLsbD k else t.packet.getLsbD k) →
    ∃ u, exec .checkParity { t with packet := q } = .next u ∧ u.result = 1) ∧
  (∀ p q : Packet, (∀ k < 53, p.getLsbD k = q.getLsbD k) → computeParity p = computeParity q) ∧
  (∀ s : State, ∃ u, exec .checkParity s = .next u ∧ (u.result = 0 ↔ ones s.packet 54 % 2 = 1))

/-! ## Framing -/

/-- R251. A framing command raises `RangeError` exactly when its channel is no channel or the offset plus the footprint
exceeds 1024, the sum taken without wrap-around; a frame that ends at sample 1023 is legal. -/
def Obligations.FootprintCheck : Prop :=
  ∀ (s : State) (c : Nat), c < 8 →
    (1024 < s.arg.toNat + 56 * s.build.bitsPerBaud.samples →
      exec (.embed c) s = .next (ended s 1 []) ∧ exec (.extract c) s = .next (ended s 1 [])) ∧
    (s.arg.toNat + 56 * s.build.bitsPerBaud.samples ≤ 1024 →
      (∃ t, exec (.embed c) s = .next t ∧ t.status = 0) ∧ (∃ t, exec (.extract c) s = .next t ∧ t.status = 0))

/-- R250, R252. EMBED writes logical bit `t` of the framed packet at the `BPB` samples from `o + t · BPB` of its channel, and
nothing else; `P` is unchanged; a bad channel or footprint is a range error. -/
def Obligations.EmbedWritesFrame : Prop :=
  (∀ c ≤ 255, decode ((0xC0000000 : Word) ||| BitVec.ofNat 32 c <<< 18) = .ok (.embed c)) ∧
  ∀ (s : State) (c : Nat),
    (c < 8 → s.arg.toNat + 56 * s.build.bitsPerBaud.samples ≤ 1024 →
      ∃ m, exec (.embed c) s = .next { ended s 0 [] with samples := m } ∧
        (∀ t k, t < 56 → k < s.build.bitsPerBaud.samples →
          stored m c (s.arg.toNat + t * s.build.bitsPerBaud.samples + k) (logicalBit s.packet t)) ∧
        keepsOthers s m (fun c' j => c' = c ∧ s.arg.toNat ≤ j ∧ j < s.arg.toNat + 56 * s.build.bitsPerBaud.samples)) ∧
    (8 ≤ c ∨ 1024 < s.arg.toNat + 56 * s.build.bitsPerBaud.samples → exec (.embed c) s = .next (ended s 1 []))

/-- R253. EXTRACT reads packet bit `i` from the sample at `o + (i + 1) · BPB + EXTRACT_PHASE` of its channel and changes no
other state but the model's record of an unwritten read; a bad channel or footprint is a range error. -/
def Obligations.ExtractReadsFrame : Prop :=
  (∀ c ≤ 255, decode ((0xC4000000 : Word) ||| BitVec.ofNat 32 c <<< 18) = .ok (.extract c)) ∧
  ∀ (s : State) (c : Nat),
    (c < 8 → s.arg.toNat + 56 * s.build.bitsPerBaud.samples ≤ 1024 →
      ∃ p record, exec (.extract c) s = .next { ended s 0 [] with packet := p, uninitSampleRead := record } ∧
        (∀ i < 54, p.getLsbD i =
          s.sample c (s.arg.toNat + (i + 1) * s.build.bitsPerBaud.samples + s.build.extractPhase)) ∧
        (record = true ↔ s.uninitSampleRead = true ∨ ∃ i < 54,
          s.sampleValid c (s.arg.toNat + (i + 1) * s.build.bitsPerBaud.samples + s.build.extractPhase) = false)) ∧
    (8 ≤ c ∨ 1024 < s.arg.toNat + 56 * s.build.bitsPerBaud.samples → exec (.extract c) s = .next (ended s 1 []))

/-- R254. The round trip: after EMBED, EXTRACT with the same channel and offset gives the packet back, for every legal `BPB`
and `EXTRACT_PHASE`, in any later state whose samples of that channel are those EMBED left. -/
def Obligations.EmbedExtractRoundTrip : Prop :=
  ∀ (s t u : State) (c : Nat), s.build.legal = true → c < 8 →
    s.arg.toNat + 56 * s.build.bitsPerBaud.samples ≤ 1024 → exec (.embed c) s = .next t →
    (∀ j < 1024, Memory.read u.samples (sampleAddress c j) = Memory.read t.samples (sampleAddress c j)) →
    u.build = s.build → u.arg = s.arg →
    ∃ v, exec (.extract c) u = .next v ∧ v.packet = s.packet ∧ v.uninitSampleRead = u.uninitSampleRead

/-- R255. After EMBED into channel `c` at `o`, TO_BYTES with a count that covers the frame emits a byte for each of its
samples, and bit `c` of byte `o + t · BPB + k` is logical bit `t`. -/
def Obligations.FrameInByteStream : Prop :=
  ∀ (s t : State) (c : Nat) (n : Word), c < 8 → s.arg.toNat + 56 * s.build.bitsPerBaud.samples ≤ 1024 →
    exec (.embed c) s = .next t → s.arg.toNat + 56 * s.build.bitsPerBaud.samples ≤ n.toNat →
    ∃ u bytes, exec .toBytes { t with arg := n } = .next u ∧ u.responses = t.responses ++ [.dout bytes] ∧
      ∀ l k, l < 56 → k < s.build.bitsPerBaud.samples →
        ∃ b, bytes[s.arg.toNat + l * s.build.bitsPerBaud.samples + k]? = some b ∧ b.getLsbD c = logicalBit s.packet l

/-! ## Host programs -/

/-- What each pseudo-instruction expands into, in order (R83); an operand that does not fit its field is refused (R82). -/
def Obligations.PseudoExpansions : Prop :=
  (∀ (i : Instr) (v : Word) (din : List Byte), readsArg i = true → WellFormed i = true →
    assemble (.command i (some v) din) = some [.writeArg v, .command (encode i) din]) ∧
  (∀ type chip addr data : Word, assemble (.cfgpkt type chip addr data) = some [
    .command 0x30000000 [], .writeArg type, .command 0x44000000 [], .writeArg chip, .command 0x4C000000 [],
    .writeArg addr, .command 0x7C000000 [], .writeArg data, .command 0x84000000 [], .command 0x9C000000 []]) ∧
  (∀ (c : Nat) (o : Word), c ≤ 255 →
    assemble (.send c o) = some [.command 0x9C000000 [], .writeArg o, .command (encode (.embed c)) []] ∧
    assemble (.recv c o) = some [.writeArg o, .command (encode (.extract c)) [], .command 0xA0000000 []]) ∧
  (∀ (i : Instr) (arg : Option Word) (din : List Byte), WellFormed i = false → assemble (.command i arg din) = none)
end

