-- ==== Sys2Proof/Laws/Memory.lean ====
section
/-! SUPPORT. The laws of the sample store's memory: what a read gives after a run is written, and that writing a run keeps
the canonical form. -/

namespace Sys2Proof.Machine

@[simp] theorem Memory.read_nil (a : Nat) : Memory.read [] a = none := rfl

theorem Memory.read_cons (k : Nat) (b : Byte) (m : List Host.Cell) (a : Nat) :
    Memory.read ((k, b) :: m) a = if k = a then some b else Memory.read m a := rfl

theorem Memory.read_append (m n : List Host.Cell) (a : Nat) :
    Memory.read (m ++ n) a = (Memory.read m a).or (Memory.read n a) := by
  induction m with
  | nil => simp
  | cons x m ih =>
    obtain ⟨k, b⟩ := x
    by_cases h : k = a <;> simp [Memory.read_cons, h, ih]

theorem Memory.read_filter (f : Nat → Bool) (m : List Host.Cell) (a : Nat) :
    Memory.read (m.filter (fun x => f x.1)) a = if f a then Memory.read m a else none := by
  induction m with
  | nil => simp
  | cons x m ih =>
    obtain ⟨k, b⟩ := x
    by_cases hk : f k <;> by_cases h : k = a
    · subst h; simp [hk, Memory.read_cons]
    · simp [hk, Memory.read_cons, h, ih]
    · subst h; simp [hk, ih]
    · simp [hk, Memory.read_cons, h, ih]

/-- What a run of bytes reads as. -/
theorem Memory.read_run (base : Nat) (bs : List Byte) (a : Nat) :
    Memory.read (Memory.run base bs) a = if base ≤ a then bs[a - base]? else none := by
  induction bs generalizing base with
  | nil => simp [Memory.run]
  | cons b bs ih =>
    rw [Memory.run, Memory.read_cons, ih]
    by_cases h : base = a
    · simp [h]
    · by_cases h2 : base + 1 ≤ a
      · have h3 : a - base = a - (base + 1) + 1 := by omega
        simp [h, h2, h3, show base ≤ a by omega]
      · simp [h, h2, show ¬ base ≤ a by omega]

/-- Everything `writeRun` does: an address inside the run reads as the byte stored there, every other address as before. -/
theorem Memory.read_writeRun (m : List Host.Cell) (base : Nat) (bs : List Byte) (a : Nat) :
    Memory.read (Memory.writeRun m base bs) a =
      if base ≤ a ∧ a < base + bs.length then bs[a - base]? else Memory.read m a := by
  unfold Memory.writeRun
  rw [Memory.read_append, Memory.read_append, Memory.read_run,
    Memory.read_filter (fun k => decide (k < base)), Memory.read_filter (fun k => decide (base + bs.length ≤ k))]
  by_cases h1 : a < base
  · have : ¬ base ≤ a := by omega
    have : ¬ base + bs.length ≤ a := by omega
    simp [*]
  · by_cases h2 : a < base + bs.length
    · have h3 : a - base < bs.length := by omega
      have : base ≤ a := by omega
      simp [*]
    · have h3 : bs.length ≤ a - base := by omega
      have : base ≤ a := by omega
      have : base + bs.length ≤ a := by omega
      simp [*]

/-! ## The canonical form -/

@[simp] theorem Memory.wf_nil : Memory.wf [] = true := rfl

theorem Memory.wfFrom_cons (lo a : Nat) (b : Byte) (m : List Host.Cell) :
    Memory.wfFrom lo ((a, b) :: m) = true ↔
      lo ≤ a ∧ a < 8192 ∧ (b = 0x00 ∨ b = 0x01) ∧ Memory.wfFrom (a + 1) m = true := by
  simp [Memory.wfFrom, and_assoc]

theorem Memory.wfFrom_mono {lo lo' : Nat} {m : List Host.Cell} (h : lo' ≤ lo) (hm : Memory.wfFrom lo m = true) :
    Memory.wfFrom lo' m = true := by
  cases m with
  | nil => rfl
  | cons x m =>
    obtain ⟨a, b⟩ := x
    rw [Memory.wfFrom_cons] at hm ⊢
    exact ⟨h.trans hm.1, hm.2⟩

theorem Memory.wfFrom_filter (f : Host.Cell → Bool) {lo : Nat} {m : List Host.Cell} (h : Memory.wfFrom lo m = true) :
    Memory.wfFrom lo (m.filter f) = true := by
  induction m generalizing lo with
  | nil => simpa using h
  | cons x m ih =>
    obtain ⟨a, b⟩ := x
    rw [Memory.wfFrom_cons] at h
    by_cases hf : f (a, b)
    · rw [List.filter_cons_of_pos hf, Memory.wfFrom_cons]
      exact ⟨h.1, h.2.1, h.2.2.1, ih h.2.2.2⟩
    · rw [List.filter_cons_of_neg hf]
      exact Memory.wfFrom_mono (by omega) (ih h.2.2.2)

theorem Memory.wfFrom_filter_ge {lo k : Nat} {m : List Host.Cell} (h : Memory.wfFrom lo m = true) :
    Memory.wfFrom k (m.filter (fun x => decide (k ≤ x.1))) = true := by
  induction m generalizing lo with
  | nil => rfl
  | cons x m ih =>
    obtain ⟨a, b⟩ := x
    rw [Memory.wfFrom_cons] at h
    by_cases hk : k ≤ a
    · rw [List.filter_cons_of_pos (by simpa using hk), Memory.wfFrom_cons]
      exact ⟨hk, h.2.1, h.2.2.1, Memory.wfFrom_filter _ h.2.2.2⟩
    · rw [List.filter_cons_of_neg (by simpa using hk)]
      exact ih h.2.2.2

theorem Memory.wfFrom_append {lo k : Nat} {m n : List Host.Cell} (hlo : lo ≤ k) (hm : Memory.wfFrom lo m = true)
    (hlt : ∀ x ∈ m, x.1 < k) (hn : Memory.wfFrom k n = true) : Memory.wfFrom lo (m ++ n) = true := by
  induction m generalizing lo with
  | nil => exact Memory.wfFrom_mono hlo hn
  | cons x m ih =>
    obtain ⟨a, b⟩ := x
    rw [Memory.wfFrom_cons] at hm
    rw [List.cons_append, Memory.wfFrom_cons]
    have ha : a < k := hlt (a, b) (by simp)
    exact ⟨hm.1, hm.2.1, hm.2.2.1, ih ha hm.2.2.2 (fun y hy => hlt y (by simp [hy]))⟩

theorem Memory.run_lt {base : Nat} {bs : List Byte} : ∀ x ∈ Memory.run base bs, x.1 < base + bs.length := by
  induction bs generalizing base with
  | nil => simp [Memory.run]
  | cons b bs ih =>
    intro x hx
    rw [Memory.run, List.mem_cons] at hx
    rcases hx with rfl | hx
    · simp
    · have := ih x hx
      simp only [List.length_cons]
      omega

theorem Memory.wfFrom_run {base : Nat} {bs : List Byte} (hbs : ∀ b ∈ bs, b = 0x00 ∨ b = 0x01)
    (hend : base + bs.length ≤ 8192) : Memory.wfFrom base (Memory.run base bs) = true := by
  induction bs generalizing base with
  | nil => rfl
  | cons b bs ih =>
    simp only [List.length_cons] at hend
    rw [Memory.run, Memory.wfFrom_cons]
    exact ⟨le_refl _, by omega, hbs b (by simp), ih (fun c hc => hbs c (by simp [hc])) (by omega)⟩

/-- Writing a run of samples that lies in the sample space keeps the canonical form. -/
theorem Memory.wf_writeRun {m : List Host.Cell} {base : Nat} {bs : List Byte} (hm : Memory.wf m = true)
    (hbs : ∀ b ∈ bs, b = 0x00 ∨ b = 0x01) (hend : base + bs.length ≤ 8192) :
    Memory.wf (Memory.writeRun m base bs) = true := by
  unfold Memory.writeRun Memory.wf at *
  rw [List.append_assoc]
  refine Memory.wfFrom_append (k := base) (Nat.zero_le _) (Memory.wfFrom_filter _ hm) (by simp) ?_
  exact Memory.wfFrom_append (k := base + bs.length) (Nat.le_add_right _ _) (Memory.wfFrom_run hbs hend)
    Memory.run_lt (Memory.wfFrom_filter_ge hm)

theorem Memory.read_none_of_lt {lo a : Nat} {m : List Host.Cell} (hm : Memory.wfFrom lo m = true) (h : a < lo) :
    Memory.read m a = none := by
  induction m generalizing lo with
  | nil => rfl
  | cons x m ih =>
    obtain ⟨k, b⟩ := x
    rw [Memory.wfFrom_cons] at hm
    rw [Memory.read_cons, if_neg (by omega)]
    exact ih hm.2.2.2 (by omega)

/-- Two memories in canonical form that read alike at every address are equal. -/
theorem Memory.eq_of_read {lo : Nat} {m n : List Host.Cell} (hm : Memory.wfFrom lo m = true)
    (hn : Memory.wfFrom lo n = true) (h : ∀ a, Memory.read m a = Memory.read n a) : m = n := by
  induction m generalizing lo n with
  | nil =>
    cases n with
    | nil => rfl
    | cons y n => have := h y.1; simp [Memory.read] at this
  | cons x m ih =>
    obtain ⟨a, b⟩ := x
    cases n with
    | nil => have := h a; simp [Memory.read] at this
    | cons y n =>
      obtain ⟨a', b'⟩ := y
      have hm' := (Memory.wfFrom_cons _ _ _ _).1 hm
      have hn' := (Memory.wfFrom_cons _ _ _ _).1 hn
      have haa : a = a' := by
        rcases Nat.lt_trichotomy a a' with hlt | heq | hlt
        · have h1 := h a
          rw [Memory.read_cons, if_pos rfl, Memory.read_cons, if_neg (by omega),
            Memory.read_none_of_lt hn'.2.2.2 (by omega)] at h1
          cases h1
        · exact heq
        · have h1 := h a'
          rw [Memory.read_cons, if_neg (by omega), Memory.read_none_of_lt hm'.2.2.2 (by omega),
            Memory.read_cons, if_pos rfl] at h1
          cases h1
      subst haa
      have hb := h a
      rw [Memory.read_cons, if_pos rfl, Memory.read_cons, if_pos rfl] at hb
      cases hb
      congr 1
      refine ih hm'.2.2.2 hn'.2.2.2 (fun k => ?_)
      by_cases hk : a = k
      · subst hk
        rw [Memory.read_none_of_lt hm'.2.2.2 (by omega), Memory.read_none_of_lt hn'.2.2.2 (by omega)]
      · have h1 := h k
        rwa [Memory.read_cons, if_neg hk, Memory.read_cons, if_neg hk] at h1

theorem Memory.run_ge {base : Nat} {bs : List Byte} : ∀ x ∈ Memory.run base bs, base ≤ x.1 := by
  induction bs generalizing base with
  | nil => simp [Memory.run]
  | cons b bs ih =>
    intro x hx
    rw [Memory.run, List.mem_cons] at hx
    rcases hx with rfl | hx
    · exact le_refl _
    · exact Nat.le_of_succ_le (ih x hx)

/-- Writing a run a second time changes nothing. -/
theorem Memory.writeRun_writeRun (m : List Host.Cell) (base : Nat) (bs : List Byte) :
    Memory.writeRun (Memory.writeRun m base bs) base bs = Memory.writeRun m base bs := by
  have h1 : (Memory.run base bs).filter (fun x => decide (x.1 < base)) = [] := by
    rw [List.filter_eq_nil_iff]
    intro x hx
    have := Memory.run_ge x hx
    simp only [decide_eq_true_eq]
    omega
  have h2 : (Memory.run base bs).filter (fun x => decide (base + bs.length ≤ x.1)) = [] := by
    rw [List.filter_eq_nil_iff]
    intro x hx
    have := Memory.run_lt x hx
    simp only [decide_eq_true_eq]
    omega
  have h3 : (m.filter fun x => decide (x.1 < base) && decide (base + bs.length ≤ x.1)) = [] := by
    rw [List.filter_eq_nil_iff]
    intro x _
    simp only [Bool.and_eq_true, decide_eq_true_eq]
    omega
  have h4 : (m.filter fun x => decide (base + bs.length ≤ x.1) && decide (x.1 < base)) = [] := by
    rw [List.filter_eq_nil_iff]
    intro x _
    simp only [Bool.and_eq_true, decide_eq_true_eq]
    omega
  unfold Memory.writeRun
  simp [List.filter_append, h1, h2, h3, h4, List.filter_filter]

/-- Writing a run makes no listed address unlisted. -/
theorem Memory.isSome_read_writeRun {m : List Host.Cell} {a : Nat} (base : Nat) (bs : List Byte)
    (h : (Memory.read m a).isSome = true) : (Memory.read (Memory.writeRun m base bs) a).isSome = true := by
  rw [Memory.read_writeRun]
  split
  · have : a - base < bs.length := by omega
    simp [this]
  · exact h

end Sys2Proof.Machine
end

