-- ==== Sys2Proof/Laws/State.lean ====
section
/-! SUPPORT. What each operation on the state leaves in each field, one lemma per field, so that no later proof unfolds a
record update. -/

namespace Sys2Proof.Machine

variable (s : State)

/-! ### `writeSamples` -/

@[simp] theorem State.writeSamples_samples (c j : Nat) (bits : List Bool) : (s.writeSamples c j bits).samples = Memory.writeRun s.samples (sampleAddress c j) (bits.map sampleByte) := rfl
@[simp] theorem State.writeSamples_packet (c j : Nat) (bits : List Bool) : (s.writeSamples c j bits).packet = s.packet := rfl
@[simp] theorem State.writeSamples_arg (c j : Nat) (bits : List Bool) : (s.writeSamples c j bits).arg = s.arg := rfl
@[simp] theorem State.writeSamples_result (c j : Nat) (bits : List Bool) : (s.writeSamples c j bits).result = s.result := rfl
@[simp] theorem State.writeSamples_status (c j : Nat) (bits : List Bool) : (s.writeSamples c j bits).status = s.status := rfl
@[simp] theorem State.writeSamples_uninitSampleRead (c j : Nat) (bits : List Bool) : (s.writeSamples c j bits).uninitSampleRead = s.uninitSampleRead := rfl
@[simp] theorem State.writeSamples_din (c j : Nat) (bits : List Bool) : (s.writeSamples c j bits).din = s.din := rfl
@[simp] theorem State.writeSamples_pending (c j : Nat) (bits : List Bool) : (s.writeSamples c j bits).pending = s.pending := rfl
@[simp] theorem State.writeSamples_responses (c j : Nat) (bits : List Bool) : (s.writeSamples c j bits).responses = s.responses := rfl
@[simp] theorem State.writeSamples_build (c j : Nat) (bits : List Bool) : (s.writeSamples c j bits).build = s.build := rfl
@[simp] theorem State.writeSamples_resetNumber (c j : Nat) (bits : List Bool) : (s.writeSamples c j bits).resetNumber = s.resetNumber := rfl

/-! ### `recordReads` -/

@[simp] theorem State.recordReads_samples (cells : List (Nat × Nat)) : (s.recordReads cells).samples = s.samples := rfl
@[simp] theorem State.recordReads_packet (cells : List (Nat × Nat)) : (s.recordReads cells).packet = s.packet := rfl
@[simp] theorem State.recordReads_arg (cells : List (Nat × Nat)) : (s.recordReads cells).arg = s.arg := rfl
@[simp] theorem State.recordReads_result (cells : List (Nat × Nat)) : (s.recordReads cells).result = s.result := rfl
@[simp] theorem State.recordReads_status (cells : List (Nat × Nat)) : (s.recordReads cells).status = s.status := rfl
@[simp] theorem State.recordReads_uninitSampleRead (cells : List (Nat × Nat)) : (s.recordReads cells).uninitSampleRead = (s.uninitSampleRead || cells.any (fun x => !s.sampleValid x.1 x.2)) := rfl
@[simp] theorem State.recordReads_din (cells : List (Nat × Nat)) : (s.recordReads cells).din = s.din := rfl
@[simp] theorem State.recordReads_pending (cells : List (Nat × Nat)) : (s.recordReads cells).pending = s.pending := rfl
@[simp] theorem State.recordReads_responses (cells : List (Nat × Nat)) : (s.recordReads cells).responses = s.responses := rfl
@[simp] theorem State.recordReads_build (cells : List (Nat × Nat)) : (s.recordReads cells).build = s.build := rfl
@[simp] theorem State.recordReads_resetNumber (cells : List (Nat × Nat)) : (s.recordReads cells).resetNumber = s.resetNumber := rfl

/-! ### `setPacket` -/

@[simp] theorem State.setPacket_samples (p : Packet) : (s.setPacket p).samples = s.samples := rfl
@[simp] theorem State.setPacket_packet (p : Packet) : (s.setPacket p).packet = p := rfl
@[simp] theorem State.setPacket_arg (p : Packet) : (s.setPacket p).arg = s.arg := rfl
@[simp] theorem State.setPacket_result (p : Packet) : (s.setPacket p).result = s.result := rfl
@[simp] theorem State.setPacket_status (p : Packet) : (s.setPacket p).status = s.status := rfl
@[simp] theorem State.setPacket_uninitSampleRead (p : Packet) : (s.setPacket p).uninitSampleRead = s.uninitSampleRead := rfl
@[simp] theorem State.setPacket_din (p : Packet) : (s.setPacket p).din = s.din := rfl
@[simp] theorem State.setPacket_pending (p : Packet) : (s.setPacket p).pending = s.pending := rfl
@[simp] theorem State.setPacket_responses (p : Packet) : (s.setPacket p).responses = s.responses := rfl
@[simp] theorem State.setPacket_build (p : Packet) : (s.setPacket p).build = s.build := rfl
@[simp] theorem State.setPacket_resetNumber (p : Packet) : (s.setPacket p).resetNumber = s.resetNumber := rfl

/-! ### `setResult` -/

@[simp] theorem State.setResult_samples (v : Nat) : (s.setResult v).samples = s.samples := rfl
@[simp] theorem State.setResult_packet (v : Nat) : (s.setResult v).packet = s.packet := rfl
@[simp] theorem State.setResult_arg (v : Nat) : (s.setResult v).arg = s.arg := rfl
@[simp] theorem State.setResult_result (v : Nat) : (s.setResult v).result = BitVec.ofNat 32 v := rfl
@[simp] theorem State.setResult_status (v : Nat) : (s.setResult v).status = s.status := rfl
@[simp] theorem State.setResult_uninitSampleRead (v : Nat) : (s.setResult v).uninitSampleRead = s.uninitSampleRead := rfl
@[simp] theorem State.setResult_din (v : Nat) : (s.setResult v).din = s.din := rfl
@[simp] theorem State.setResult_pending (v : Nat) : (s.setResult v).pending = s.pending := rfl
@[simp] theorem State.setResult_responses (v : Nat) : (s.setResult v).responses = s.responses := rfl
@[simp] theorem State.setResult_build (v : Nat) : (s.setResult v).build = s.build := rfl
@[simp] theorem State.setResult_resetNumber (v : Nat) : (s.setResult v).resetNumber = s.resetNumber := rfl

/-! ### `endCommand` -/

@[simp] theorem State.endCommand_samples (code : StatusCode) (dout : List Byte) : (s.endCommand code dout).samples = s.samples := rfl
@[simp] theorem State.endCommand_packet (code : StatusCode) (dout : List Byte) : (s.endCommand code dout).packet = s.packet := rfl
@[simp] theorem State.endCommand_arg (code : StatusCode) (dout : List Byte) : (s.endCommand code dout).arg = s.arg := rfl
@[simp] theorem State.endCommand_result (code : StatusCode) (dout : List Byte) : (s.endCommand code dout).result = s.result := rfl
@[simp] theorem State.endCommand_status (code : StatusCode) (dout : List Byte) : (s.endCommand code dout).status = code.word := rfl
@[simp] theorem State.endCommand_uninitSampleRead (code : StatusCode) (dout : List Byte) : (s.endCommand code dout).uninitSampleRead = s.uninitSampleRead := rfl
@[simp] theorem State.endCommand_din (code : StatusCode) (dout : List Byte) : (s.endCommand code dout).din = [] := rfl
@[simp] theorem State.endCommand_pending (code : StatusCode) (dout : List Byte) : (s.endCommand code dout).pending = s.pending := rfl
@[simp] theorem State.endCommand_responses (code : StatusCode) (dout : List Byte) : (s.endCommand code dout).responses = s.responses ++ [.dout dout] := rfl
@[simp] theorem State.endCommand_build (code : StatusCode) (dout : List Byte) : (s.endCommand code dout).build = s.build := rfl
@[simp] theorem State.endCommand_resetNumber (code : StatusCode) (dout : List Byte) : (s.endCommand code dout).resetNumber = s.resetNumber := rfl

/-! ### `complete` -/

@[simp] theorem State.complete_samples (dout : List Byte) : (s.complete dout).samples = s.samples := rfl
@[simp] theorem State.complete_packet (dout : List Byte) : (s.complete dout).packet = s.packet := rfl
@[simp] theorem State.complete_arg (dout : List Byte) : (s.complete dout).arg = s.arg := rfl
@[simp] theorem State.complete_result (dout : List Byte) : (s.complete dout).result = s.result := rfl
@[simp] theorem State.complete_status (dout : List Byte) : (s.complete dout).status = 0 := rfl
@[simp] theorem State.complete_uninitSampleRead (dout : List Byte) : (s.complete dout).uninitSampleRead = s.uninitSampleRead := rfl
@[simp] theorem State.complete_din (dout : List Byte) : (s.complete dout).din = [] := rfl
@[simp] theorem State.complete_pending (dout : List Byte) : (s.complete dout).pending = s.pending := rfl
@[simp] theorem State.complete_responses (dout : List Byte) : (s.complete dout).responses = s.responses ++ [.dout dout] := rfl
@[simp] theorem State.complete_build (dout : List Byte) : (s.complete dout).build = s.build := rfl
@[simp] theorem State.complete_resetNumber (dout : List Byte) : (s.complete dout).resetNumber = s.resetNumber := rfl

/-! ### `raise` -/

@[simp] theorem State.raise_samples (code : StatusCode) : (s.raise code).samples = s.samples := rfl
@[simp] theorem State.raise_packet (code : StatusCode) : (s.raise code).packet = s.packet := rfl
@[simp] theorem State.raise_arg (code : StatusCode) : (s.raise code).arg = s.arg := rfl
@[simp] theorem State.raise_result (code : StatusCode) : (s.raise code).result = s.result := rfl
@[simp] theorem State.raise_status (code : StatusCode) : (s.raise code).status = code.word := rfl
@[simp] theorem State.raise_uninitSampleRead (code : StatusCode) : (s.raise code).uninitSampleRead = s.uninitSampleRead := rfl
@[simp] theorem State.raise_din (code : StatusCode) : (s.raise code).din = [] := rfl
@[simp] theorem State.raise_pending (code : StatusCode) : (s.raise code).pending = s.pending := rfl
@[simp] theorem State.raise_responses (code : StatusCode) : (s.raise code).responses = s.responses ++ [.dout []] := rfl
@[simp] theorem State.raise_build (code : StatusCode) : (s.raise code).build = s.build := rfl
@[simp] theorem State.raise_resetNumber (code : StatusCode) : (s.raise code).resetNumber = s.resetNumber := rfl

/-! ### `popInteraction` -/

@[simp] theorem State.popInteraction_samples : (s.popInteraction).samples = s.samples := rfl
@[simp] theorem State.popInteraction_packet : (s.popInteraction).packet = s.packet := rfl
@[simp] theorem State.popInteraction_arg : (s.popInteraction).arg = s.arg := rfl
@[simp] theorem State.popInteraction_result : (s.popInteraction).result = s.result := rfl
@[simp] theorem State.popInteraction_status : (s.popInteraction).status = s.status := rfl
@[simp] theorem State.popInteraction_uninitSampleRead : (s.popInteraction).uninitSampleRead = s.uninitSampleRead := rfl
@[simp] theorem State.popInteraction_din : (s.popInteraction).din = s.din := rfl
@[simp] theorem State.popInteraction_pending : (s.popInteraction).pending = s.pending.tail := rfl
@[simp] theorem State.popInteraction_responses : (s.popInteraction).responses = s.responses := rfl
@[simp] theorem State.popInteraction_build : (s.popInteraction).build = s.build := rfl
@[simp] theorem State.popInteraction_resetNumber : (s.popInteraction).resetNumber = s.resetNumber := rfl

/-! ### `beginCommand` -/

@[simp] theorem State.beginCommand_samples (din : List Byte) : (s.beginCommand din).samples = s.samples := rfl
@[simp] theorem State.beginCommand_packet (din : List Byte) : (s.beginCommand din).packet = s.packet := rfl
@[simp] theorem State.beginCommand_arg (din : List Byte) : (s.beginCommand din).arg = s.arg := rfl
@[simp] theorem State.beginCommand_result (din : List Byte) : (s.beginCommand din).result = s.result := rfl
@[simp] theorem State.beginCommand_status (din : List Byte) : (s.beginCommand din).status = s.status := rfl
@[simp] theorem State.beginCommand_uninitSampleRead (din : List Byte) : (s.beginCommand din).uninitSampleRead = s.uninitSampleRead := rfl
@[simp] theorem State.beginCommand_din (din : List Byte) : (s.beginCommand din).din = din := rfl
@[simp] theorem State.beginCommand_pending (din : List Byte) : (s.beginCommand din).pending = s.pending.tail := rfl
@[simp] theorem State.beginCommand_responses (din : List Byte) : (s.beginCommand din).responses = s.responses := rfl
@[simp] theorem State.beginCommand_build (din : List Byte) : (s.beginCommand din).build = s.build := rfl
@[simp] theorem State.beginCommand_resetNumber (din : List Byte) : (s.beginCommand din).resetNumber = s.resetNumber := rfl

/-! ### `illegalCommand` -/

@[simp] theorem State.illegalCommand_samples : (s.illegalCommand).samples = s.samples := rfl
@[simp] theorem State.illegalCommand_packet : (s.illegalCommand).packet = s.packet := rfl
@[simp] theorem State.illegalCommand_arg : (s.illegalCommand).arg = s.arg := rfl
@[simp] theorem State.illegalCommand_result : (s.illegalCommand).result = s.result := rfl
@[simp] theorem State.illegalCommand_status : (s.illegalCommand).status = 2 := rfl
@[simp] theorem State.illegalCommand_uninitSampleRead : (s.illegalCommand).uninitSampleRead = s.uninitSampleRead := rfl
@[simp] theorem State.illegalCommand_din : (s.illegalCommand).din = [] := rfl
@[simp] theorem State.illegalCommand_pending : (s.illegalCommand).pending = s.pending := rfl
@[simp] theorem State.illegalCommand_responses : (s.illegalCommand).responses = s.responses ++ [.dout []] := rfl
@[simp] theorem State.illegalCommand_build : (s.illegalCommand).build = s.build := rfl
@[simp] theorem State.illegalCommand_resetNumber : (s.illegalCommand).resetNumber = s.resetNumber := rfl

/-! ### `hostWriteArg` -/

@[simp] theorem State.hostWriteArg_samples (v : Word) : (s.hostWriteArg v).samples = s.samples := rfl
@[simp] theorem State.hostWriteArg_packet (v : Word) : (s.hostWriteArg v).packet = s.packet := rfl
@[simp] theorem State.hostWriteArg_arg (v : Word) : (s.hostWriteArg v).arg = v := rfl
@[simp] theorem State.hostWriteArg_result (v : Word) : (s.hostWriteArg v).result = s.result := rfl
@[simp] theorem State.hostWriteArg_status (v : Word) : (s.hostWriteArg v).status = s.status := rfl
@[simp] theorem State.hostWriteArg_uninitSampleRead (v : Word) : (s.hostWriteArg v).uninitSampleRead = s.uninitSampleRead := rfl
@[simp] theorem State.hostWriteArg_din (v : Word) : (s.hostWriteArg v).din = s.din := rfl
@[simp] theorem State.hostWriteArg_pending (v : Word) : (s.hostWriteArg v).pending = s.pending := rfl
@[simp] theorem State.hostWriteArg_responses (v : Word) : (s.hostWriteArg v).responses = s.responses := rfl
@[simp] theorem State.hostWriteArg_build (v : Word) : (s.hostWriteArg v).build = s.build := rfl
@[simp] theorem State.hostWriteArg_resetNumber (v : Word) : (s.hostWriteArg v).resetNumber = s.resetNumber := rfl

/-! ### `hostReadResult` -/

@[simp] theorem State.hostReadResult_samples : (s.hostReadResult).samples = s.samples := rfl
@[simp] theorem State.hostReadResult_packet : (s.hostReadResult).packet = s.packet := rfl
@[simp] theorem State.hostReadResult_arg : (s.hostReadResult).arg = s.arg := rfl
@[simp] theorem State.hostReadResult_result : (s.hostReadResult).result = s.result := rfl
@[simp] theorem State.hostReadResult_status : (s.hostReadResult).status = s.status := rfl
@[simp] theorem State.hostReadResult_uninitSampleRead : (s.hostReadResult).uninitSampleRead = s.uninitSampleRead := rfl
@[simp] theorem State.hostReadResult_din : (s.hostReadResult).din = s.din := rfl
@[simp] theorem State.hostReadResult_pending : (s.hostReadResult).pending = s.pending := rfl
@[simp] theorem State.hostReadResult_responses : (s.hostReadResult).responses = s.responses ++ [.result s.result] := rfl
@[simp] theorem State.hostReadResult_build : (s.hostReadResult).build = s.build := rfl
@[simp] theorem State.hostReadResult_resetNumber : (s.hostReadResult).resetNumber = s.resetNumber := rfl

/-! ### `hostReadStatus` -/

@[simp] theorem State.hostReadStatus_samples : (s.hostReadStatus).samples = s.samples := rfl
@[simp] theorem State.hostReadStatus_packet : (s.hostReadStatus).packet = s.packet := rfl
@[simp] theorem State.hostReadStatus_arg : (s.hostReadStatus).arg = s.arg := rfl
@[simp] theorem State.hostReadStatus_result : (s.hostReadStatus).result = s.result := rfl
@[simp] theorem State.hostReadStatus_status : (s.hostReadStatus).status = s.status := rfl
@[simp] theorem State.hostReadStatus_uninitSampleRead : (s.hostReadStatus).uninitSampleRead = s.uninitSampleRead := rfl
@[simp] theorem State.hostReadStatus_din : (s.hostReadStatus).din = s.din := rfl
@[simp] theorem State.hostReadStatus_pending : (s.hostReadStatus).pending = s.pending := rfl
@[simp] theorem State.hostReadStatus_responses : (s.hostReadStatus).responses = s.responses ++ [.status s.status] := rfl
@[simp] theorem State.hostReadStatus_build : (s.hostReadStatus).build = s.build := rfl
@[simp] theorem State.hostReadStatus_resetNumber : (s.hostReadStatus).resetNumber = s.resetNumber := rfl

/-! ### `hostReset` -/

@[simp] theorem State.hostReset_samples : (s.hostReset).samples = [] := rfl
@[simp] theorem State.hostReset_packet : (s.hostReset).packet = 0 := rfl
@[simp] theorem State.hostReset_arg : (s.hostReset).arg = 0 := rfl
@[simp] theorem State.hostReset_result : (s.hostReset).result = 0 := rfl
@[simp] theorem State.hostReset_status : (s.hostReset).status = 0 := rfl
@[simp] theorem State.hostReset_uninitSampleRead : (s.hostReset).uninitSampleRead = s.uninitSampleRead := rfl
@[simp] theorem State.hostReset_din : (s.hostReset).din = [] := rfl
@[simp] theorem State.hostReset_pending : (s.hostReset).pending = s.pending := rfl
@[simp] theorem State.hostReset_responses : (s.hostReset).responses = s.responses := rfl
@[simp] theorem State.hostReset_build : (s.hostReset).build = s.build := rfl
@[simp] theorem State.hostReset_resetNumber : (s.hostReset).resetNumber = s.resetNumber + 1 := rfl

/-! ### `unpackBytes` -/

@[simp] theorem State.unpackBytes_samples (bytes : List Byte) : (s.unpackBytes bytes).samples = unpackInto s.samples bytes := rfl
@[simp] theorem State.unpackBytes_packet (bytes : List Byte) : (s.unpackBytes bytes).packet = s.packet := rfl
@[simp] theorem State.unpackBytes_arg (bytes : List Byte) : (s.unpackBytes bytes).arg = s.arg := rfl
@[simp] theorem State.unpackBytes_result (bytes : List Byte) : (s.unpackBytes bytes).result = s.result := rfl
@[simp] theorem State.unpackBytes_status (bytes : List Byte) : (s.unpackBytes bytes).status = s.status := rfl
@[simp] theorem State.unpackBytes_uninitSampleRead (bytes : List Byte) : (s.unpackBytes bytes).uninitSampleRead = s.uninitSampleRead := rfl
@[simp] theorem State.unpackBytes_din (bytes : List Byte) : (s.unpackBytes bytes).din = s.din := rfl
@[simp] theorem State.unpackBytes_pending (bytes : List Byte) : (s.unpackBytes bytes).pending = s.pending := rfl
@[simp] theorem State.unpackBytes_responses (bytes : List Byte) : (s.unpackBytes bytes).responses = s.responses := rfl
@[simp] theorem State.unpackBytes_build (bytes : List Byte) : (s.unpackBytes bytes).build = s.build := rfl
@[simp] theorem State.unpackBytes_resetNumber (bytes : List Byte) : (s.unpackBytes bytes).resetNumber = s.resetNumber := rfl

/-! ### `fillSamples` -/

@[simp] theorem State.fillSamples_samples (b : Bool) : (s.fillSamples b).samples = Memory.writeRun s.samples (sampleAddress 0 0) ((fillBits 8192 b).map sampleByte) := rfl
@[simp] theorem State.fillSamples_packet (b : Bool) : (s.fillSamples b).packet = s.packet := rfl
@[simp] theorem State.fillSamples_arg (b : Bool) : (s.fillSamples b).arg = s.arg := rfl
@[simp] theorem State.fillSamples_result (b : Bool) : (s.fillSamples b).result = s.result := rfl
@[simp] theorem State.fillSamples_status (b : Bool) : (s.fillSamples b).status = s.status := rfl
@[simp] theorem State.fillSamples_uninitSampleRead (b : Bool) : (s.fillSamples b).uninitSampleRead = s.uninitSampleRead := rfl
@[simp] theorem State.fillSamples_din (b : Bool) : (s.fillSamples b).din = s.din := rfl
@[simp] theorem State.fillSamples_pending (b : Bool) : (s.fillSamples b).pending = s.pending := rfl
@[simp] theorem State.fillSamples_responses (b : Bool) : (s.fillSamples b).responses = s.responses := rfl
@[simp] theorem State.fillSamples_build (b : Bool) : (s.fillSamples b).build = s.build := rfl
@[simp] theorem State.fillSamples_resetNumber (b : Bool) : (s.fillSamples b).resetNumber = s.resetNumber := rfl

/-! ### The shared getter and setter -/

@[simp] theorem State.getField_samples (lo len : Nat) : (s.getField lo len).samples = s.samples := rfl
@[simp] theorem State.getField_packet (lo len : Nat) : (s.getField lo len).packet = s.packet := rfl
@[simp] theorem State.getField_arg (lo len : Nat) : (s.getField lo len).arg = s.arg := rfl
@[simp] theorem State.getField_result (lo len : Nat) : (s.getField lo len).result = BitVec.ofNat 32 (fieldValue s.packet lo len) := rfl
@[simp] theorem State.getField_status (lo len : Nat) : (s.getField lo len).status = 0 := rfl
@[simp] theorem State.getField_uninitSampleRead (lo len : Nat) : (s.getField lo len).uninitSampleRead = s.uninitSampleRead := rfl
@[simp] theorem State.getField_din (lo len : Nat) : (s.getField lo len).din = [] := rfl
@[simp] theorem State.getField_pending (lo len : Nat) : (s.getField lo len).pending = s.pending := rfl
@[simp] theorem State.getField_responses (lo len : Nat) : (s.getField lo len).responses = s.responses ++ [.dout []] := rfl
@[simp] theorem State.getField_build (lo len : Nat) : (s.getField lo len).build = s.build := rfl
@[simp] theorem State.getField_resetNumber (lo len : Nat) : (s.getField lo len).resetNumber = s.resetNumber := rfl
@[simp] theorem State.setField_samples (lo len : Nat) : (s.setField lo len).samples = s.samples := rfl
@[simp] theorem State.setField_packet (lo len : Nat) : (s.setField lo len).packet = withField s.packet lo len s.arg.toNat := rfl
@[simp] theorem State.setField_arg (lo len : Nat) : (s.setField lo len).arg = s.arg := rfl
@[simp] theorem State.setField_result (lo len : Nat) : (s.setField lo len).result = s.result := rfl
@[simp] theorem State.setField_status (lo len : Nat) : (s.setField lo len).status = 0 := rfl
@[simp] theorem State.setField_uninitSampleRead (lo len : Nat) : (s.setField lo len).uninitSampleRead = s.uninitSampleRead := rfl
@[simp] theorem State.setField_din (lo len : Nat) : (s.setField lo len).din = [] := rfl
@[simp] theorem State.setField_pending (lo len : Nat) : (s.setField lo len).pending = s.pending := rfl
@[simp] theorem State.setField_responses (lo len : Nat) : (s.setField lo len).responses = s.responses ++ [.dout []] := rfl
@[simp] theorem State.setField_build (lo len : Nat) : (s.setField lo len).build = s.build := rfl
@[simp] theorem State.setField_resetNumber (lo len : Nat) : (s.setField lo len).resetNumber = s.resetNumber := rfl

end Sys2Proof.Machine
end

