-- ==== Sys2Proof/Laws/Samples.lean ====
section
/-! SUPPORT. The laws of the sample store: what a sample and its validity are after samples are written or reads recorded,
and that writing keeps the canonical form. -/

namespace Sys2Proof.Machine

@[simp] theorem byteSample_sampleByte (b : Bool) : byteSample (sampleByte b) = b := by cases b <;> rfl

theorem sampleByte_or (b : Bool) : sampleByte b = 0x00 ∨ sampleByte b = 0x01 := by cases b <;> simp [sampleByte]

/-- A run of samples of channel `c` that ends inside the channel covers exactly the cells of `c` at its indices. -/
theorem sampleAddress_inRun {c j n c' j' : Nat} (hj' : j' < 1024) (hn : j + n ≤ 1024) :
    (sampleAddress c j ≤ sampleAddress c' j' ∧ sampleAddress c' j' < sampleAddress c j + n) ↔
      c' = c ∧ j ≤ j' ∧ j' < j + n := by unfold sampleAddress; omega

/-- Everything `writeSamples` does to the sample at `(c', j')`. -/
theorem State.sample_writeSamples (s : State) (c j : Nat) (bits : List Bool) (c' j' : Nat) (hj' : j' < 1024)
    (hn : j + bits.length ≤ 1024) :
    (s.writeSamples c j bits).sample c' j' =
      if c' = c ∧ j ≤ j' ∧ j' < j + bits.length then (bits[j' - j]?).getD false else s.sample c' j' := by
  unfold State.sample
  rw [State.writeSamples_samples, Memory.read_writeRun, List.length_map, State.writeSamples_resetNumber]
  by_cases h : c' = c ∧ j ≤ j' ∧ j' < j + bits.length
  · rw [if_pos ((sampleAddress_inRun hj' hn).2 h), if_pos h]
    obtain ⟨rfl, h1, h2⟩ := h
    have h3 : sampleAddress c' j' - sampleAddress c' j = j' - j := by unfold sampleAddress; omega
    have h4 : j' - j < bits.length := by omega
    rw [h3, List.getElem?_map, List.getElem?_eq_getElem h4]
    simp
  · rw [if_neg (fun h' => h ((sampleAddress_inRun hj' hn).1 h')), if_neg h]

/-- Everything `writeSamples` does to the validity of the cell `(c', j')`. -/
theorem State.sampleValid_writeSamples (s : State) (c j : Nat) (bits : List Bool) (c' j' : Nat) (hj' : j' < 1024)
    (hn : j + bits.length ≤ 1024) :
    (s.writeSamples c j bits).sampleValid c' j' =
      (decide (c' = c ∧ j ≤ j' ∧ j' < j + bits.length) || s.sampleValid c' j') := by
  unfold State.sampleValid
  rw [State.writeSamples_samples, Memory.read_writeRun, List.length_map]
  by_cases h : c' = c ∧ j ≤ j' ∧ j' < j + bits.length
  · rw [if_pos ((sampleAddress_inRun hj' hn).2 h)]
    obtain ⟨rfl, h1, h2⟩ := h
    have h3 : sampleAddress c' j' - sampleAddress c' j < (bits.map sampleByte).length := by
      rw [List.length_map]; unfold sampleAddress; omega
    rw [List.getElem?_eq_getElem h3]
    simp [h1, h2]
  · rw [if_neg (fun h' => h ((sampleAddress_inRun hj' hn).1 h'))]
    simp [h]

/-- No write of samples makes a written cell unwritten, wherever the run lies. -/
theorem State.sampleValid_mono (s : State) (c j : Nat) (bits : List Bool) (c' j' : Nat)
    (h : s.sampleValid c' j' = true) : (s.writeSamples c j bits).sampleValid c' j' = true := by
  unfold State.sampleValid at *
  rw [State.writeSamples_samples, Memory.read_writeRun, List.length_map]
  split
  · rename_i h'
    rw [List.getElem?_eq_getElem (by rw [List.length_map]; omega)]
    rfl
  · exact h

/-- The cell of item `j` of a run of samples, after the run is written at `(c, o)`. -/
theorem read_samples_at (m : List Host.Cell) (c o : Nat) (bits : List Bool) (j : Nat) (b : Bool) (h : bits[j]? = some b) :
    Memory.read (Memory.writeRun m (sampleAddress c o) (bits.map sampleByte)) (sampleAddress c (o + j)) =
      some (sampleByte b) := by
  obtain ⟨hj, -⟩ := List.getElem?_eq_some_iff.1 h
  have h1 : sampleAddress c (o + j) - sampleAddress c o = j := by unfold sampleAddress; omega
  rw [Memory.read_writeRun, List.length_map, if_pos (by unfold sampleAddress; omega), h1, List.getElem?_map, h]
  rfl

/-- An address of no item's cell keeps what it has. -/
theorem read_samples_frame (m : List Host.Cell) (c o : Nat) (bits : List Bool) (a : Nat)
    (h : ∀ j, o ≤ j → j < o + bits.length → a ≠ sampleAddress c j) :
    Memory.read (Memory.writeRun m (sampleAddress c o) (bits.map sampleByte)) a = Memory.read m a := by
  rw [Memory.read_writeRun, List.length_map, if_neg]
  intro h2
  refine h (a - sampleAddress c o + o) (by omega) (by omega) ?_
  unfold sampleAddress at *
  omega

theorem getLsbD_sampleByte_shiftLeft (b : Bool) (i k : Nat) (hk : k < 8) :
    (sampleByte b <<< i).getLsbD k = (decide (k = i) && b) := by
  rw [BitVec.getLsbD_shiftLeft]
  rcases Nat.lt_trichotomy k i with h | h | h
  · simp [h, Nat.ne_of_lt h]
  · subst h; cases b <;> simp [hk, sampleByte]
  · cases b <;> simp [hk, Nat.not_lt.2 (Nat.le_of_lt h), Nat.ne_of_gt h, sampleByte, BitVec.getLsbD_one,
      Nat.sub_ne_zero_of_lt h]

/-- Bit `k` of a packed byte is the sample of channel `k`. -/
theorem getLsbD_packedByte (s : State) (j k : Nat) (hk : k < 8) : (s.packedByte j).getLsbD k = s.sample k j := by
  have key : ∀ (l : List Nat) (b : Byte),
      (l.foldl (fun b i => b ||| (sampleByte (s.sample i j) <<< i)) b).getLsbD k =
        (b.getLsbD k || (decide (k ∈ l) && s.sample k j)) := by
    intro l
    induction l with
    | nil => simp
    | cons i l ih =>
      intro b
      rw [List.foldl_cons, ih, BitVec.getLsbD_or, getLsbD_sampleByte_shiftLeft _ _ _ hk]
      by_cases h : k = i
      · subst h; cases s.sample k j <;> simp
      · simp [h]
  unfold State.packedByte
  rw [key]
  simp [hk]

/-! ## The fill and the clock pattern -/

@[simp] theorem length_fillBits (n : Nat) (b : Bool) : (fillBits n b).length = n := by simp [fillBits]

theorem getElem?_fillBits (n : Nat) (b : Bool) {i : Nat} (h : i < n) : (fillBits n b)[i]? = some b := by
  simp [fillBits, h]

@[simp] theorem length_clockBits (n : Nat) : (clockBits n).length = n := by simp [clockBits]

theorem getElem?_clockBits (n : Nat) {j : Nat} (h : j < n) : (clockBits n)[j]? = some (decide (j % 2 = 1)) := by
  simp [clockBits, h, Nat.testBit_zero]

/-- What a cell of the store reads as after it is filled. -/
theorem read_fillSamples (s : State) (b : Bool) (c j : Nat) (hc : c < 8) (hj : j < 1024) :
    Memory.read (s.fillSamples b).samples (sampleAddress c j) = some (sampleByte b) := by
  rw [State.fillSamples_samples, Memory.read_writeRun, List.length_map, length_fillBits, if_pos]
  · have h2 : sampleAddress c j - sampleAddress 0 0 < 8192 := by unfold sampleAddress; omega
    rw [List.getElem?_map, getElem?_fillBits _ b h2, Option.map_some]
  · unfold sampleAddress; omega

/-- Filling the store: every cell of the 8 channels holds the fill and is valid. -/
theorem State.sample_fillSamples (s : State) (b : Bool) (c j : Nat) (hc : c < 8) (hj : j < 1024) :
    (s.fillSamples b).sample c j = b ∧ (s.fillSamples b).sampleValid c j = true := by
  unfold State.sample State.sampleValid
  rw [read_fillSamples s b c j hc hj]
  exact ⟨byteSample_sampleByte b, rfl⟩

/-- A run of samples inside one of the 8 channels keeps the canonical form. -/
theorem State.wf_writeSamples (s : State) (c j : Nat) (bits : List Bool) (h : Memory.wf s.samples = true) (hc : c < 8)
    (hn : j + bits.length ≤ 1024) : Memory.wf (s.writeSamples c j bits).samples = true := by
  rw [State.writeSamples_samples]
  refine Memory.wf_writeRun h (fun b hb => ?_) ?_
  · obtain ⟨x, -, rfl⟩ := List.mem_map.1 hb
    exact sampleByte_or x
  · rw [List.length_map]; unfold sampleAddress; omega

/-- The whole store filled is in its canonical form. -/
theorem State.wf_fillSamples (s : State) (b : Bool) (h : Memory.wf s.samples = true) :
    Memory.wf (s.fillSamples b).samples = true := by
  unfold State.fillSamples
  rw [State.writeSamples_samples]
  refine Memory.wf_writeRun h (fun x hx => ?_) ?_
  · obtain ⟨y, -, rfl⟩ := List.mem_map.1 hx
    exact sampleByte_or y
  · rw [List.length_map, length_fillBits]; unfold sampleAddress; omega

/-! ## Unpacking bytes into the eight channels -/

/-- Writing one channel after another, for the channels of a list: what an address reads as afterwards. -/
theorem read_foldl_writeRun (f : Nat → List Byte) (n : Nat) (hlen : ∀ k, (f k).length = n) (hn : n ≤ 1024)
    (l : List Nat) (hl : l.Nodup) (m : List Host.Cell) (c j : Nat) (hj : j < 1024) :
    Memory.read (l.foldl (fun m k => Memory.writeRun m (sampleAddress k 0) (f k)) m) (sampleAddress c j) =
      if c ∈ l ∧ j < n then (f c)[j]? else Memory.read m (sampleAddress c j) := by
  induction l generalizing m with
  | nil => simp
  | cons k l ih =>
    rw [List.nodup_cons] at hl
    rw [List.foldl_cons, ih hl.2, Memory.read_writeRun, hlen]
    have hrun := sampleAddress_inRun (c := k) (j := 0) (n := n) (c' := c) hj (by omega)
    by_cases hc : c = k
    · subst hc
      by_cases hjn : j < n
      · have h0 : sampleAddress c j - sampleAddress c 0 = j := by unfold sampleAddress; omega
        rw [if_neg (by simp [hl.1]), if_pos (hrun.2 (by simp [hjn])), h0, if_pos (by simp [hjn])]
      · rw [if_neg (by simp [hjn]), if_neg (fun h => hjn (by simpa using (hrun.1 h).2.2)), if_neg (by simp [hjn])]
    · rw [if_neg (fun h => hc (hrun.1 h).1)]
      simp [hc]

/-- An address in none of the channels' runs keeps what it has. -/
theorem read_foldl_writeRun_frame (f : Nat → List Byte) (n : Nat) (hlen : ∀ k, (f k).length = n)
    (l : List Nat) (m : List Host.Cell) (a : Nat)
    (ha : ∀ k ∈ l, ∀ j < n, a ≠ sampleAddress k j) :
    Memory.read (l.foldl (fun m k => Memory.writeRun m (sampleAddress k 0) (f k)) m) a = Memory.read m a := by
  induction l generalizing m with
  | nil => rfl
  | cons k l ih =>
    rw [List.foldl_cons, ih _ (fun k' hk' => ha k' (by simp [hk'])), Memory.read_writeRun, hlen, if_neg]
    intro h
    have hk := ha k (by simp) (a - sampleAddress k 0) (by omega)
    unfold sampleAddress at *
    omega

theorem wf_foldl_writeRun (f : Nat → List Byte) (n : Nat) (hlen : ∀ k, (f k).length = n) (hn : n ≤ 1024)
    (hf : ∀ k, ∀ b ∈ f k, b = 0x00 ∨ b = 0x01) (l : List Nat) (hl : ∀ k ∈ l, k < 8) (m : List Host.Cell)
    (h : Memory.wf m = true) :
    Memory.wf (l.foldl (fun m k => Memory.writeRun m (sampleAddress k 0) (f k)) m) = true := by
  induction l generalizing m with
  | nil => exact h
  | cons k l ih =>
    rw [List.foldl_cons]
    refine ih (fun j hj => hl j (by simp [hj])) _ (Memory.wf_writeRun h (hf k) ?_)
    have := hl k (by simp)
    rw [hlen]; unfold sampleAddress; omega

/-- Everything FROM_BYTES's writes do to a cell of the eight channels. -/
theorem read_unpackInto (m : List Host.Cell) (bytes : List Byte) (hn : bytes.length ≤ 1024) (c j : Nat) (hc : c < 8)
    (hj : j < 1024) :
    Memory.read (unpackInto m bytes) (sampleAddress c j) =
      if j < bytes.length then bytes[j]?.map (fun b => sampleByte (b.getLsbD c))
      else Memory.read m (sampleAddress c j) := by
  have h := read_foldl_writeRun (fun k => bytes.map (fun b => sampleByte (b.getLsbD k))) bytes.length (by simp) hn
    (List.range 8) List.nodup_range m c j hj
  unfold unpackInto
  rw [h]
  simp [hc]

/-- FROM_BYTES's writes leave every other address as it is. -/
theorem read_unpackInto_frame (m : List Host.Cell) (bytes : List Byte) (a : Nat)
    (ha : ∀ c < 8, ∀ j < bytes.length, a ≠ sampleAddress c j) :
    Memory.read (unpackInto m bytes) a = Memory.read m a := by
  have h := read_foldl_writeRun_frame (fun k => bytes.map (fun b => sampleByte (b.getLsbD k))) bytes.length (by simp)
    (List.range 8) m a (fun k hk => ha k (by simpa using hk))
  unfold unpackInto
  exact h

/-- FROM_BYTES's writes make no listed address unlisted. -/
theorem isSome_read_unpackInto (m : List Host.Cell) (bytes : List Byte) (a : Nat)
    (h : (Memory.read m a).isSome = true) : (Memory.read (unpackInto m bytes) a).isSome = true := by
  unfold unpackInto
  generalize List.range 8 = l
  induction l generalizing m with
  | nil => exact h
  | cons k l ih => exact ih _ (Memory.isSome_read_writeRun _ _ h)

theorem wf_unpackInto (m : List Host.Cell) (bytes : List Byte) (hn : bytes.length ≤ 1024) (h : Memory.wf m = true) :
    Memory.wf (unpackInto m bytes) = true := by
  have hf : ∀ k, ∀ b ∈ bytes.map (fun b => sampleByte (b.getLsbD k)), b = 0x00 ∨ b = 0x01 := by
    intro k b hb
    obtain ⟨x, -, rfl⟩ := List.mem_map.1 hb
    exact sampleByte_or _
  have hk := wf_foldl_writeRun (fun k => bytes.map (fun b => sampleByte (b.getLsbD k))) bytes.length (by simp) hn hf
    (List.range 8) (by simp) m h
  unfold unpackInto
  exact hk

/-- FROM_BYTES's writes, done a second time, change nothing. -/
theorem unpackInto_unpackInto (m : List Host.Cell) (bytes : List Byte) (hn : bytes.length ≤ 1024)
    (h : Memory.wf m = true) : unpackInto (unpackInto m bytes) bytes = unpackInto m bytes := by
  have hw := wf_unpackInto m bytes hn h
  refine Memory.eq_of_read (lo := 0) (wf_unpackInto _ bytes hn hw) hw (fun a => ?_)
  by_cases ha : ∃ c < 8, ∃ j < bytes.length, a = sampleAddress c j
  · obtain ⟨c, hc, j, hj, rfl⟩ := ha
    rw [read_unpackInto _ _ hn _ _ hc (by omega), read_unpackInto _ _ hn _ _ hc (by omega), if_pos hj, if_pos hj]
  · exact read_unpackInto_frame _ _ _ (fun c hc j hj e => ha ⟨c, hc, j, hj, e⟩)

/-! ## The record of unwritten reads -/

/-- The record after reading the cells of a list. -/
theorem State.uninitSampleRead_recordReads (s : State) (cells : List (Nat × Nat)) :
    (s.recordReads cells).uninitSampleRead = true ↔
      s.uninitSampleRead = true ∨ ∃ x ∈ cells, s.sampleValid x.1 x.2 = false := by
  simp [State.recordReads]

theorem mem_allChannelCells (n : Nat) (x : Nat × Nat) : x ∈ allChannelCells n ↔ x.1 < 8 ∧ x.2 < n := by
  simp only [allChannelCells, List.mem_flatMap, List.mem_map, List.mem_range]
  constructor
  · rintro ⟨j, hj, k, hk, rfl⟩
    exact ⟨hk, hj⟩
  · rintro ⟨hk, hj⟩
    exact ⟨x.2, hj, x.1, hk, rfl⟩

theorem mem_channelCells (c n : Nat) (x : Nat × Nat) : x ∈ channelCells c n ↔ x.1 = c ∧ x.2 < n := by
  simp only [channelCells, List.mem_map, List.mem_range]
  constructor
  · rintro ⟨j, hj, rfl⟩
    exact ⟨rfl, hj⟩
  · rintro ⟨rfl, hj⟩
    exact ⟨x.2, hj, rfl⟩

end Sys2Proof.Machine
end

