-- ==== Sys2Proof/Laws/Outcome.lean ====
section
/-! SUPPORT. What a check can answer, and what any command can do when it answers a next state. -/

namespace Sys2Proof.Machine

/-- An admitted command goes on to its remaining checks. -/
theorem requireInput_of_le {need : Nat} {s : State} (h : need ≤ s.din.length) (k : Host.Outcome State Fault Refusal) :
    requireInput need s k = k := if_neg (Nat.not_lt.2 h)

/-- A command short of input has no step. -/
theorem requireInput_of_lt {need : Nat} {s : State} (h : s.din.length < need) (k : Host.Outcome State Fault Refusal) :
    requireInput need s k = .fault .inputNotAdmitted := if_pos h

@[simp] theorem requireRange_true (s : State) (k : Host.Outcome State Fault Refusal) : requireRange true s k = k := rfl

@[simp] theorem requireRange_false (s : State) (k : Host.Outcome State Fault Refusal) :
    requireRange false s k = .next (s.raise .rangeError) := rfl

/-- Everything `requireInput` can do when it answers a next state. -/
theorem requireInput_eq_next {need : Nat} {s t : State} {k : Host.Outcome State Fault Refusal} (h : requireInput need s k = .next t) :
    need ≤ s.din.length ∧ k = .next t := by
  by_cases hn : s.din.length < need
  · rw [requireInput_of_lt hn] at h; cases h
  · rw [requireInput_of_le (Nat.not_lt.1 hn)] at h; exact ⟨Nat.not_lt.1 hn, h⟩

/-- Everything `requireRange` can do when it answers a next state. -/
theorem requireRange_eq_next {ok : Bool} {s t : State} {k : Host.Outcome State Fault Refusal}
    (h : requireRange ok s k = .next t) : (ok = true ∧ k = .next t) ∨ (ok = false ∧ t = s.raise .rangeError) := by
  cases ok
  · right; simpa [eq_comm] using h
  · left; simpa using h

/-- What a command keeps while it is in progress: `ARG`, the parameters, the host's list and what it was given, and the
record of unwritten reads once it is set. -/
structure Keeps (s u : State) : Prop where
  arg : u.arg = s.arg
  build : u.build = s.build
  pending : u.pending = s.pending
  resetNumber : u.resetNumber = s.resetNumber
  responses : u.responses = s.responses
  record : s.uninitSampleRead = true → u.uninitSampleRead = true

theorem Keeps.refl (s : State) : Keeps s s := ⟨rfl, rfl, rfl, rfl, rfl, id⟩

theorem Keeps.writeSamples {s u : State} (h : Keeps s u) (c j : Nat) (bits : List Bool) :
    Keeps s (u.writeSamples c j bits) := ⟨h.arg, h.build, h.pending, h.resetNumber, h.responses, h.record⟩

theorem Keeps.fillSamples (s : State) (b : Bool) : Keeps s (s.fillSamples b) :=
  (Keeps.refl s).writeSamples 0 0 (fillBits 8192 b)

theorem Keeps.setPacket {s u : State} (h : Keeps s u) (p : Packet) : Keeps s (u.setPacket p) :=
  ⟨h.arg, h.build, h.pending, h.resetNumber, h.responses, h.record⟩

theorem Keeps.setResult {s u : State} (h : Keeps s u) (v : Nat) : Keeps s (u.setResult v) :=
  ⟨h.arg, h.build, h.pending, h.resetNumber, h.responses, h.record⟩

theorem Keeps.recordReads {s u : State} (h : Keeps s u) (cells : List (Nat × Nat)) : Keeps s (u.recordReads cells) :=
  ⟨h.arg, h.build, h.pending, h.resetNumber, h.responses, fun hs => by simp [h.record hs]⟩

theorem Keeps.unpackBytes (s : State) (bytes : List Byte) : Keeps s (s.unpackBytes bytes) :=
  ⟨rfl, rfl, rfl, rfl, rfl, id⟩

/-- Say once what a command can do: one that answers a next state either raised `RangeError`, or did its effect, which
keeps what `Keeps` names, and completed. -/
theorem exec_next_cases {i : Instr} {s t : State} (h : exec i s = .next t) :
    t = s.raise .rangeError ∨ ∃ u dout, Keeps s u ∧ t = u.complete dout := by
  have k := Keeps.refl s
  cases i
  case initHigh => exact .inr ⟨_, _, Keeps.fillSamples s _, (Host.Outcome.next.inj h).symm⟩
  case initLow => exact .inr ⟨_, _, Keeps.fillSamples s _, (Host.Outcome.next.inj h).symm⟩
  case toBytes => exact .inr ⟨_, _, k.recordReads _, (Host.Outcome.next.inj h).symm⟩
  case fromBytes =>
    exact .inr ⟨_, _, Keeps.unpackBytes s _, (Host.Outcome.next.inj (requireInput_eq_next h).2).symm⟩
  case setChannelBitstream c =>
    rcases requireRange_eq_next (requireInput_eq_next h).2 with ⟨-, h⟩ | ⟨-, h⟩
    · exact .inr ⟨_, _, k.writeSamples _ _ _, (Host.Outcome.next.inj h).symm⟩
    · exact .inl h
  case getChannelBitstream c =>
    rcases requireRange_eq_next h with ⟨-, h⟩ | ⟨-, h⟩
    · exact .inr ⟨_, _, k.recordReads _, (Host.Outcome.next.inj h).symm⟩
    · exact .inl h
  case setClockPattern c =>
    rcases requireRange_eq_next h with ⟨-, h⟩ | ⟨-, h⟩
    · exact .inr ⟨_, _, k.writeSamples c 0 _, (Host.Outcome.next.inj h).symm⟩
    · exact .inl h
  case intToBits len =>
    rcases requireRange_eq_next h with ⟨-, h⟩ | ⟨-, h⟩
    · exact .inr ⟨_, _, k, (Host.Outcome.next.inj h).symm⟩
    · exact .inl h
  case bitsToInt len =>
    rcases requireRange_eq_next (requireInput_eq_next h).2 with ⟨-, h⟩ | ⟨-, h⟩
    · exact .inr ⟨_, _, k.setResult _, (Host.Outcome.next.inj h).symm⟩
    · exact .inl h
  case fieldGet lo len =>
    rcases requireRange_eq_next h with ⟨-, h⟩ | ⟨-, h⟩
    · rcases requireRange_eq_next h with ⟨-, h⟩ | ⟨-, h⟩
      · exact .inr ⟨_, _, k.setResult _, (Host.Outcome.next.inj h).symm⟩
      · exact .inl h
    · exact .inl h
  case fieldSet lo len =>
    rcases requireRange_eq_next h with ⟨-, h⟩ | ⟨-, h⟩
    · rcases requireRange_eq_next h with ⟨-, h⟩ | ⟨-, h⟩
      · exact .inr ⟨_, _, k.setPacket _, (Host.Outcome.next.inj h).symm⟩
      · exact .inl h
    · exact .inl h
  case embed c =>
    rcases requireRange_eq_next h with ⟨-, h⟩ | ⟨-, h⟩
    · rcases requireRange_eq_next h with ⟨-, h⟩ | ⟨-, h⟩
      · exact .inr ⟨_, _, k.writeSamples _ _ _, (Host.Outcome.next.inj h).symm⟩
      · exact .inl h
    · exact .inl h
  case extract c =>
    rcases requireRange_eq_next h with ⟨-, h⟩ | ⟨-, h⟩
    · rcases requireRange_eq_next h with ⟨-, h⟩ | ⟨-, h⟩
      · exact .inr ⟨_, _, (k.recordReads _).setPacket _, (Host.Outcome.next.inj h).symm⟩
      · exact .inl h
    · exact .inl h
  case getPacketType | getChipid | getChannelid | getTimestamp | getDataword | getFifoHalf |
      getFifoFull | getRegister | getRegisterData | getTestCounter | getParity | computeParity | checkParity =>
    exact .inr ⟨_, _, k.setResult _, (Host.Outcome.next.inj h).symm⟩
  case pktClear | setPacketType | setChipid | setChannelid | setTimestamp | setDataword |
      setFifoHalf | setFifoFull | setRegister | setRegisterData | setTestCounter | forceSetParity | setParity =>
    exact .inr ⟨_, _, k.setPacket _, (Host.Outcome.next.inj h).symm⟩

/-- What a command that answers a next state did to the sample memory: nothing, one run of bytes, or FROM_BYTES's writes. -/
theorem exec_samples_cases {i : Instr} {s t : State} (h : exec i s = .next t) :
    t.samples = s.samples ∨ (∃ base bs, t.samples = Memory.writeRun s.samples base bs) ∨
      ∃ bytes, t.samples = unpackInto s.samples bytes := by
  cases i
  case initHigh => rw [← Host.Outcome.next.inj h]; exact .inr (.inl ⟨_, _, rfl⟩)
  case initLow => rw [← Host.Outcome.next.inj h]; exact .inr (.inl ⟨_, _, rfl⟩)
  case fromBytes => rw [← Host.Outcome.next.inj (requireInput_eq_next h).2]; exact .inr (.inr ⟨_, rfl⟩)
  case setChannelBitstream c =>
    rcases requireRange_eq_next (requireInput_eq_next h).2 with ⟨-, h⟩ | ⟨-, h⟩
    · rw [← Host.Outcome.next.inj h]; exact .inr (.inl ⟨_, _, rfl⟩)
    · subst h; exact .inl rfl
  case bitsToInt c =>
    rcases requireRange_eq_next (requireInput_eq_next h).2 with ⟨-, h⟩ | ⟨-, h⟩
    · rw [← Host.Outcome.next.inj h]; exact .inl rfl
    · subst h; exact .inl rfl
  case setClockPattern c =>
    rcases requireRange_eq_next h with ⟨-, h⟩ | ⟨-, h⟩
    · rw [← Host.Outcome.next.inj h]; exact .inr (.inl ⟨_, _, rfl⟩)
    · subst h; exact .inl rfl
  case getChannelBitstream c =>
    rcases requireRange_eq_next h with ⟨-, h⟩ | ⟨-, h⟩
    · rw [← Host.Outcome.next.inj h]; exact .inl rfl
    · subst h; exact .inl rfl
  case intToBits c =>
    rcases requireRange_eq_next h with ⟨-, h⟩ | ⟨-, h⟩
    · rw [← Host.Outcome.next.inj h]; exact .inl rfl
    · subst h; exact .inl rfl
  case embed c =>
    rcases requireRange_eq_next h with ⟨-, h⟩ | ⟨-, h⟩
    · rcases requireRange_eq_next h with ⟨-, h⟩ | ⟨-, h⟩
      · rw [← Host.Outcome.next.inj h]; exact .inr (.inl ⟨_, _, rfl⟩)
      · subst h; exact .inl rfl
    · subst h; exact .inl rfl
  case fieldGet | fieldSet | extract =>
    rcases requireRange_eq_next h with ⟨-, h⟩ | ⟨-, h⟩
    · rcases requireRange_eq_next h with ⟨-, h⟩ | ⟨-, h⟩
      · rw [← Host.Outcome.next.inj h]; exact .inl rfl
      · subst h; exact .inl rfl
    · subst h; exact .inl rfl
  all_goals
    have h := Host.Outcome.next.inj h
    subst h
    exact .inl (by simp)

end Sys2Proof.Machine
end

