-- ==== Sys2Proof/Laws/Commands.lean ====
section
/-! SUPPORT. What each command answers, in the named operations: one equation per command whose checks pass, and one per
check that fails. A proof cites these and unfolds no meaning. -/

namespace Sys2Proof.Machine

theorem State.footprintOk_iff (s : State) :
    s.footprintOk = true ↔ s.arg.toNat + 56 * s.build.bitsPerBaud.samples ≤ 1024 := decide_eq_true_iff

theorem channelOk_of_lt {c : Nat} (h : c < 8) : channelOk c = true := decide_eq_true h

theorem channelOk_of_ge {c : Nat} (h : 8 ≤ c) : channelOk c = false := decide_eq_false (Nat.not_lt.2 h)

theorem lengthOk_of_le {len : Nat} (h : len ≤ 32) : lengthOk len = true := decide_eq_true h

theorem lengthOk_of_gt {len : Nat} (h : 32 < len) : lengthOk len = false := decide_eq_false (Nat.not_le.2 h)

theorem fieldOk_of_le {lo len : Nat} (h : lo + len ≤ 54) : fieldOk lo len = true := decide_eq_true h

theorem fieldOk_of_gt {lo len : Nat} (h : 54 < lo + len) : fieldOk lo len = false := decide_eq_false (Nat.not_le.2 h)

/-! ## The sample store -/

theorem exec_initHigh (s : State) : exec .initHigh s = .next ((s.fillSamples true).complete []) := rfl

theorem exec_initLow (s : State) : exec .initLow s = .next ((s.fillSamples false).complete []) := rfl

theorem exec_toBytes (s : State) : exec .toBytes s = .next ((s.recordReads (allChannelCells s.count)).complete
    ((List.range s.count).map (fun j => s.packedByte j))) := rfl

theorem exec_fromBytes {s : State} (h : s.count ≤ s.din.length) :
    exec .fromBytes s = .next ((s.unpackBytes (s.din.take s.count)).complete []) := requireInput_of_le h _

theorem exec_setChannelBitstream {s : State} {c : Nat} (h : s.count ≤ s.din.length) (hc : c < 8) :
    exec (.setChannelBitstream c) s =
      .next ((s.writeSamples c 0 ((s.din.take s.count).map byteSample)).complete []) := by
  show requireInput _ _ (requireRange _ _ _) = _
  rw [requireInput_of_le h, channelOk_of_lt hc, requireRange_true]

theorem exec_setChannelBitstream_range {s : State} {c : Nat} (h : s.count ≤ s.din.length) (hc : 8 ≤ c) :
    exec (.setChannelBitstream c) s = .next (s.raise .rangeError) := by
  show requireInput _ _ (requireRange _ _ _) = _
  rw [requireInput_of_le h, channelOk_of_ge hc, requireRange_false]

theorem exec_getChannelBitstream (s : State) {c : Nat} (hc : c < 8) :
    exec (.getChannelBitstream c) s =
      .next ((s.recordReads (channelCells c s.count)).complete ((s.channelSamples c s.count).map sampleByte)) := by
  show requireRange _ _ _ = _
  rw [channelOk_of_lt hc, requireRange_true]

theorem exec_getChannelBitstream_range (s : State) {c : Nat} (hc : 8 ≤ c) :
    exec (.getChannelBitstream c) s = .next (s.raise .rangeError) := by
  show requireRange _ _ _ = _
  rw [channelOk_of_ge hc, requireRange_false]

theorem exec_setClockPattern (s : State) {c : Nat} (hc : c < 8) :
    exec (.setClockPattern c) s = .next ((s.writeSamples c 0 (clockBits 1024)).complete []) := by
  show requireRange _ _ _ = _
  rw [channelOk_of_lt hc, requireRange_true]

theorem exec_setClockPattern_range (s : State) {c : Nat} (hc : 8 ≤ c) :
    exec (.setClockPattern c) s = .next (s.raise .rangeError) := by
  show requireRange _ _ _ = _
  rw [channelOk_of_ge hc, requireRange_false]

/-! ## The bitfield decoder -/

theorem exec_intToBits (s : State) {len : Nat} (h : len ≤ 32) :
    exec (.intToBits len) s = .next (s.complete ((intToBits s.arg.toNat len).map sampleByte)) := by
  show requireRange _ _ _ = _
  rw [lengthOk_of_le h, requireRange_true]

theorem exec_intToBits_range (s : State) {len : Nat} (h : 32 < len) :
    exec (.intToBits len) s = .next (s.raise .rangeError) := by
  show requireRange _ _ _ = _
  rw [lengthOk_of_gt h, requireRange_false]

theorem exec_bitsToInt {s : State} {len : Nat} (h : len ≤ s.din.length) (hl : len ≤ 32) :
    exec (.bitsToInt len) s = .next ((s.setResult (bitsToInt ((s.din.take len).map byteSample))).complete []) := by
  show requireInput _ _ (requireRange _ _ _) = _
  rw [requireInput_of_le h, lengthOk_of_le hl, requireRange_true]

theorem exec_bitsToInt_range {s : State} {len : Nat} (h : len ≤ s.din.length) (hl : 32 < len) :
    exec (.bitsToInt len) s = .next (s.raise .rangeError) := by
  show requireInput _ _ (requireRange _ _ _) = _
  rw [requireInput_of_le h, lengthOk_of_gt hl, requireRange_false]

/-- The two checks of a field command. -/
theorem requireField (s : State) {lo len : Nat} (h1 : len ≤ 32) (h2 : lo + len ≤ 54)
    (k : Host.Outcome State Fault Refusal) : requireRange (lengthOk len) s (requireRange (fieldOk lo len) s k) = k := by
  rw [lengthOk_of_le h1, fieldOk_of_le h2, requireRange_true, requireRange_true]

theorem requireField_range (s : State) {lo len : Nat} (h : 32 < len ∨ 54 < lo + len)
    (k : Host.Outcome State Fault Refusal) :
    requireRange (lengthOk len) s (requireRange (fieldOk lo len) s k) = .next (s.raise .rangeError) := by
  by_cases h1 : 32 < len
  · rw [lengthOk_of_gt h1, requireRange_false]
  · rw [lengthOk_of_le (Nat.not_lt.1 h1), fieldOk_of_gt (h.resolve_left h1), requireRange_true, requireRange_false]

theorem exec_fieldGet (s : State) {lo len : Nat} (h1 : len ≤ 32) (h2 : lo + len ≤ 54) :
    exec (.fieldGet lo len) s = .next (s.getField lo len) := requireField s h1 h2 _

theorem exec_fieldGet_range (s : State) {lo len : Nat} (h : 32 < len ∨ 54 < lo + len) :
    exec (.fieldGet lo len) s = .next (s.raise .rangeError) := requireField_range s h _

theorem exec_fieldSet (s : State) {lo len : Nat} (h1 : len ≤ 32) (h2 : lo + len ≤ 54) :
    exec (.fieldSet lo len) s = .next (s.setField lo len) := requireField s h1 h2 _

theorem exec_fieldSet_range (s : State) {lo len : Nat} (h : 32 < len ∨ 54 < lo + len) :
    exec (.fieldSet lo len) s = .next (s.raise .rangeError) := requireField_range s h _

theorem exec_pktClear (s : State) : exec .pktClear s = .next ((s.setPacket 0).complete []) := rfl

/-! ## The packet fields -/

theorem exec_getPacketType (s : State) : exec .getPacketType s = .next (s.getField 0 2) := rfl

theorem exec_setPacketType (s : State) : exec .setPacketType s = .next (s.setField 0 2) := rfl

theorem exec_getChipid (s : State) : exec .getChipid s = .next (s.getField 2 8) := rfl

theorem exec_setChipid (s : State) : exec .setChipid s = .next (s.setField 2 8) := rfl

theorem exec_getChannelid (s : State) : exec .getChannelid s = .next (s.getField 10 7) := rfl

theorem exec_setChannelid (s : State) : exec .setChannelid s = .next (s.setField 10 7) := rfl

theorem exec_getTimestamp (s : State) : exec .getTimestamp s = .next (s.getField 17 24) := rfl

theorem exec_setTimestamp (s : State) : exec .setTimestamp s = .next (s.setField 17 24) := rfl

theorem exec_getDataword (s : State) : exec .getDataword s = .next (s.getField 41 10) := rfl

theorem exec_setDataword (s : State) : exec .setDataword s = .next (s.setField 41 10) := rfl

theorem exec_getFifoHalf (s : State) : exec .getFifoHalf s = .next (s.getField 51 1) := rfl

theorem exec_setFifoHalf (s : State) : exec .setFifoHalf s = .next (s.setField 51 1) := rfl

theorem exec_getFifoFull (s : State) : exec .getFifoFull s = .next (s.getField 52 1) := rfl

theorem exec_setFifoFull (s : State) : exec .setFifoFull s = .next (s.setField 52 1) := rfl

theorem exec_getRegister (s : State) : exec .getRegister s = .next (s.getField 10 8) := rfl

theorem exec_setRegister (s : State) : exec .setRegister s = .next (s.setField 10 8) := rfl

theorem exec_getRegisterData (s : State) : exec .getRegisterData s = .next (s.getField 18 8) := rfl

theorem exec_setRegisterData (s : State) : exec .setRegisterData s = .next (s.setField 18 8) := rfl

theorem exec_getParity (s : State) : exec .getParity s = .next (s.getField 53 1) := rfl

theorem exec_forceSetParity (s : State) : exec .forceSetParity s = .next (s.setField 53 1) := rfl

theorem exec_getTestCounter (s : State) :
    exec .getTestCounter s = .next ((s.setResult (testCounter s.packet)).complete []) := rfl

theorem exec_setTestCounter (s : State) :
    exec .setTestCounter s = .next ((s.setPacket (withTestCounter s.packet s.arg.toNat)).complete []) := rfl

/-! ## Parity -/

theorem exec_computeParity (s : State) :
    exec .computeParity s = .next ((s.setResult (computeParity s.packet).toNat).complete []) := rfl

theorem exec_setParity (s : State) :
    exec .setParity s = .next ((s.setPacket (setPacketBit s.packet 53 (computeParity s.packet))).complete []) := rfl

theorem exec_checkParity (s : State) :
    exec .checkParity s = .next ((s.setResult (parityMismatch s.packet)).complete []) := rfl

/-! ## Framing -/

/-- The two checks of a framing command. -/
theorem requireFrame (s : State) {c : Nat} (hc : c < 8)
    (h : s.arg.toNat + 56 * s.build.bitsPerBaud.samples ≤ 1024) (k : Host.Outcome State Fault Refusal) :
    requireRange (channelOk c) s (requireRange s.footprintOk s k) = k := by
  rw [channelOk_of_lt hc, s.footprintOk_iff.2 h, requireRange_true, requireRange_true]

theorem requireFrame_range (s : State) {c : Nat}
    (h : 8 ≤ c ∨ 1024 < s.arg.toNat + 56 * s.build.bitsPerBaud.samples) (k : Host.Outcome State Fault Refusal) :
    requireRange (channelOk c) s (requireRange s.footprintOk s k) = .next (s.raise .rangeError) := by
  by_cases hc : 8 ≤ c
  · rw [channelOk_of_ge hc, requireRange_false]
  · have hf : s.footprintOk = false := by
      rw [← Bool.not_eq_true, s.footprintOk_iff]
      exact Nat.not_le.2 (h.resolve_left hc)
    rw [channelOk_of_lt (Nat.not_le.1 hc), hf, requireRange_true, requireRange_false]

theorem exec_embed (s : State) {c : Nat} (hc : c < 8) (h : s.arg.toNat + 56 * s.build.bitsPerBaud.samples ≤ 1024) :
    exec (.embed c) s = .next ((s.writeSamples c s.frameOffset (frameSamples s.packet s.bpb)).complete []) :=
  requireFrame s hc h _

theorem exec_embed_range (s : State) {c : Nat} (h : 8 ≤ c ∨ 1024 < s.arg.toNat + 56 * s.build.bitsPerBaud.samples) :
    exec (.embed c) s = .next (s.raise .rangeError) := requireFrame_range s h _

theorem exec_extract (s : State) {c : Nat} (hc : c < 8) (h : s.arg.toNat + 56 * s.build.bitsPerBaud.samples ≤ 1024) :
    exec (.extract c) s = .next (((s.recordReads (s.extractCells c)).setPacket
      (writePacketBits s.packet 0 ((List.range 54).map (fun i => s.sample c (s.extractIndex i))))).complete []) :=
  requireFrame s hc h _

theorem exec_extract_range (s : State) {c : Nat} (h : 8 ≤ c ∨ 1024 < s.arg.toNat + 56 * s.build.bitsPerBaud.samples) :
    exec (.extract c) s = .next (s.raise .rangeError) := requireFrame_range s h _

end Sys2Proof.Machine
end

