-- ==== Sys2Proof/Laws/PerInstr.lean ====
section
/-! SUPPORT. Statements made per command. `OpcodeField`: a command's word carries its opcode in `OP`, zero in `RSV`, and zero
in every field its class does not use (spec/30_encoding.md R71, R72). -/

namespace Sys2Proof.Laws

/-- The word of a well-formed command has the command's opcode in `OP` and zero in the fields its class does not use. -/
def OpcodeField.Statement (i : Instr) : Prop :=
  WellFormed i = true → fieldOp (encode i) = opcode i ∧ fieldRsv (encode i) = 0 ∧
    (operandClass i ≠ .cmdC → fieldCh (encode i) = 0) ∧ (operandClass i ≠ .cmdF → fieldLo (encode i) = 0) ∧
    (operandClass i ≠ .cmdF → operandClass i ≠ .cmdL → fieldLen (encode i) = 0)

/-- Every opcode fits the 6-bit `OP` field. -/
theorem opcode_lt (i : Instr) : opcode i < 64 := by cases i <;> simp [opcode]

/-- The fields of an assembled word, for operands that fit. -/
theorem fields_assembleWord {op c lo len : Nat} (hop : op < 64) (hc : c ≤ 255) (hlo : lo ≤ 63) (hlen : len ≤ 63) :
    fieldOp (assembleWord op c lo len) = op ∧ fieldCh (assembleWord op c lo len) = c ∧
      fieldLo (assembleWord op c lo len) = lo ∧ fieldLen (assembleWord op c lo len) = len ∧
      fieldRsv (assembleWord op c lo len) = 0 := by
  have big : ∀ {n k i : Nat}, n < 2 ^ k → k ≤ i → n.testBit i = false := fun h hk =>
    Nat.testBit_lt_two_pow (h.trans_le (Nat.pow_le_pow_right (by omega) hk))
  have h1 : ∀ i, 6 ≤ i → op.testBit i = false := fun i hi => big (k := 6) (by omega) hi
  have h2 : ∀ i, 8 ≤ i → c.testBit i = false := fun i hi => big (k := 8) (by omega) hi
  have h3 : ∀ i, 6 ≤ i → lo.testBit i = false := fun i hi => big (k := 6) (by omega) hi
  have h4 : ∀ i, 6 ≤ i → len.testBit i = false := fun i hi => big (k := 6) (by omega) hi
  refine ⟨?_, ?_, ?_, ?_, ?_⟩ <;> apply Nat.eq_of_testBit_eq <;> intro i <;>
    simp only [fieldOp, fieldCh, fieldLo, fieldLen, fieldRsv, wordField, assembleWord, BitVec.testBit_toNat,
      BitVec.getLsbD_extractLsb', BitVec.getLsbD_or, BitVec.getLsbD_shiftLeft, BitVec.getLsbD_ofNat,
      Nat.zero_testBit]
  · by_cases hi : i < 6
    · simp [hi, h2 (26 + i - 18) (by omega), h3 (26 + i - 12) (by omega), h4 (26 + i - 6) (by omega),
        show 26 + i < 32 by omega, show i < 32 by omega]
    · simp [hi, h1 i (by omega)]
  · by_cases hi : i < 8
    · simp [hi, h3 (18 + i - 12) (by omega), h4 (18 + i - 6) (by omega), show 18 + i < 32 by omega,
        show 18 + i < 26 by omega, show i < 32 by omega]
    · simp [hi, h2 i (by omega)]
  · by_cases hi : i < 6
    · simp [hi, h4 (12 + i - 6) (by omega), show 12 + i < 32 by omega, show 12 + i < 26 by omega,
        show 12 + i < 18 by omega, show i < 32 by omega]
    · simp [hi, h3 i (by omega)]
  · by_cases hi : i < 6
    · simp [hi, show 6 + i < 32 by omega, show 6 + i < 26 by omega, show 6 + i < 18 by omega,
        show 6 + i < 12 by omega, show i < 32 by omega]
    · simp [hi, h4 i (by omega)]
  · by_cases hi : i < 6
    · simp [hi, show i < 26 by omega, show i < 18 by omega, show i < 12 by omega]
    · simp [hi]

theorem OpcodeField.initHigh : OpcodeField.Statement .initHigh := fun _ => by decide

theorem OpcodeField.initLow : OpcodeField.Statement .initLow := fun _ => by decide

theorem OpcodeField.toBytes : OpcodeField.Statement .toBytes := fun _ => by decide

theorem OpcodeField.fromBytes : OpcodeField.Statement .fromBytes := fun _ => by decide

theorem OpcodeField.setChannelBitstream (c : Nat) : OpcodeField.Statement (.setChannelBitstream c) := fun h => by
  have f := fields_assembleWord (lo := 0) (len := 0) (opcode_lt (.setChannelBitstream c)) (of_decide_eq_true h) (by omega) (by omega)
  exact ⟨f.1, f.2.2.2.2, fun hc => absurd rfl hc, fun _ => f.2.2.1, fun _ _ => f.2.2.2.1⟩

theorem OpcodeField.getChannelBitstream (c : Nat) : OpcodeField.Statement (.getChannelBitstream c) := fun h => by
  have f := fields_assembleWord (lo := 0) (len := 0) (opcode_lt (.getChannelBitstream c)) (of_decide_eq_true h) (by omega) (by omega)
  exact ⟨f.1, f.2.2.2.2, fun hc => absurd rfl hc, fun _ => f.2.2.1, fun _ _ => f.2.2.2.1⟩

theorem OpcodeField.setClockPattern (c : Nat) : OpcodeField.Statement (.setClockPattern c) := fun h => by
  have f := fields_assembleWord (lo := 0) (len := 0) (opcode_lt (.setClockPattern c)) (of_decide_eq_true h) (by omega) (by omega)
  exact ⟨f.1, f.2.2.2.2, fun hc => absurd rfl hc, fun _ => f.2.2.1, fun _ _ => f.2.2.2.1⟩

theorem OpcodeField.intToBits (len : Nat) : OpcodeField.Statement (.intToBits len) := fun h => by
  have f := fields_assembleWord (c := 0) (lo := 0) (opcode_lt (.intToBits len)) (by omega) (by omega) (of_decide_eq_true h)
  exact ⟨f.1, f.2.2.2.2, fun _ => f.2.1, fun _ => f.2.2.1, fun _ hc => absurd rfl hc⟩

theorem OpcodeField.bitsToInt (len : Nat) : OpcodeField.Statement (.bitsToInt len) := fun h => by
  have f := fields_assembleWord (c := 0) (lo := 0) (opcode_lt (.bitsToInt len)) (by omega) (by omega) (of_decide_eq_true h)
  exact ⟨f.1, f.2.2.2.2, fun _ => f.2.1, fun _ => f.2.2.1, fun _ hc => absurd rfl hc⟩

theorem OpcodeField.fieldGet (lo len : Nat) : OpcodeField.Statement (.fieldGet lo len) := fun h => by
  have hw := (Bool.and_eq_true _ _).mp h
  have f := fields_assembleWord (c := 0) (opcode_lt (.fieldGet lo len)) (by omega) (of_decide_eq_true hw.1) (of_decide_eq_true hw.2)
  exact ⟨f.1, f.2.2.2.2, fun _ => f.2.1, fun hc => absurd rfl hc, fun hc => absurd rfl hc⟩

theorem OpcodeField.fieldSet (lo len : Nat) : OpcodeField.Statement (.fieldSet lo len) := fun h => by
  have hw := (Bool.and_eq_true _ _).mp h
  have f := fields_assembleWord (c := 0) (opcode_lt (.fieldSet lo len)) (by omega) (of_decide_eq_true hw.1) (of_decide_eq_true hw.2)
  exact ⟨f.1, f.2.2.2.2, fun _ => f.2.1, fun hc => absurd rfl hc, fun hc => absurd rfl hc⟩

theorem OpcodeField.pktClear : OpcodeField.Statement .pktClear := fun _ => by decide

theorem OpcodeField.getPacketType : OpcodeField.Statement .getPacketType := fun _ => by decide

theorem OpcodeField.setPacketType : OpcodeField.Statement .setPacketType := fun _ => by decide

theorem OpcodeField.getChipid : OpcodeField.Statement .getChipid := fun _ => by decide

theorem OpcodeField.setChipid : OpcodeField.Statement .setChipid := fun _ => by decide

theorem OpcodeField.getChannelid : OpcodeField.Statement .getChannelid := fun _ => by decide

theorem OpcodeField.setChannelid : OpcodeField.Statement .setChannelid := fun _ => by decide

theorem OpcodeField.getTimestamp : OpcodeField.Statement .getTimestamp := fun _ => by decide

theorem OpcodeField.setTimestamp : OpcodeField.Statement .setTimestamp := fun _ => by decide

theorem OpcodeField.getDataword : OpcodeField.Statement .getDataword := fun _ => by decide

theorem OpcodeField.setDataword : OpcodeField.Statement .setDataword := fun _ => by decide

theorem OpcodeField.getFifoHalf : OpcodeField.Statement .getFifoHalf := fun _ => by decide

theorem OpcodeField.setFifoHalf : OpcodeField.Statement .setFifoHalf := fun _ => by decide

theorem OpcodeField.getFifoFull : OpcodeField.Statement .getFifoFull := fun _ => by decide

theorem OpcodeField.setFifoFull : OpcodeField.Statement .setFifoFull := fun _ => by decide

theorem OpcodeField.getRegister : OpcodeField.Statement .getRegister := fun _ => by decide

theorem OpcodeField.setRegister : OpcodeField.Statement .setRegister := fun _ => by decide

theorem OpcodeField.getRegisterData : OpcodeField.Statement .getRegisterData := fun _ => by decide

theorem OpcodeField.setRegisterData : OpcodeField.Statement .setRegisterData := fun _ => by decide

theorem OpcodeField.getTestCounter : OpcodeField.Statement .getTestCounter := fun _ => by decide

theorem OpcodeField.setTestCounter : OpcodeField.Statement .setTestCounter := fun _ => by decide

theorem OpcodeField.getParity : OpcodeField.Statement .getParity := fun _ => by decide

theorem OpcodeField.forceSetParity : OpcodeField.Statement .forceSetParity := fun _ => by decide

theorem OpcodeField.computeParity : OpcodeField.Statement .computeParity := fun _ => by decide

theorem OpcodeField.setParity : OpcodeField.Statement .setParity := fun _ => by decide

theorem OpcodeField.checkParity : OpcodeField.Statement .checkParity := fun _ => by decide

theorem OpcodeField.embed (c : Nat) : OpcodeField.Statement (.embed c) := fun h => by
  have f := fields_assembleWord (lo := 0) (len := 0) (opcode_lt (.embed c)) (of_decide_eq_true h) (by omega) (by omega)
  exact ⟨f.1, f.2.2.2.2, fun hc => absurd rfl hc, fun _ => f.2.2.1, fun _ _ => f.2.2.2.1⟩

theorem OpcodeField.extract (c : Nat) : OpcodeField.Statement (.extract c) := fun h => by
  have f := fields_assembleWord (lo := 0) (len := 0) (opcode_lt (.extract c)) (of_decide_eq_true h) (by omega) (by omega)
  exact ⟨f.1, f.2.2.2.2, fun hc => absurd rfl hc, fun _ => f.2.2.1, fun _ _ => f.2.2.2.1⟩

end Sys2Proof.Laws
end

