-- ==== Sys2Proof/Laws/Encoding.lean ====
section
/-! SUPPORT. The laws of a command word as its five fields: each field as a slice of the word, words equal by their fields,
and what a mask leaves of each. -/

namespace Sys2Proof.Laws

/-- A field as a slice of the word read as one number. -/
theorem wordField_eq (w : Word) (lo n : Nat) : wordField w lo n = w.toNat / 2 ^ lo % 2 ^ n := by
  simp [wordField, BitVec.extractLsb'_toNat, Nat.shiftRight_eq_div_pow]

theorem wordField_lt (w : Word) (lo n : Nat) : wordField w lo n < 2 ^ n := by
  rw [wordField_eq]; exact Nat.mod_lt _ (by positivity)

theorem wordField_and (w m : Word) (lo n : Nat) : wordField (w &&& m) lo n = wordField w lo n &&& wordField m lo n := by
  simp only [wordField]
  rw [← BitVec.toNat_and]
  congr 1
  ext i
  simp

/-- A 6-bit field under a mask of all ones. -/
theorem wordField_and_63 (w : Word) (lo : Nat) : wordField w lo 6 &&& 63 = wordField w lo 6 := by
  have := wordField_lt w lo 6
  rw [show 63 = 2 ^ 6 - 1 from rfl, Nat.and_two_pow_sub_one_eq_mod, Nat.mod_eq_of_lt this]

/-- An 8-bit field under a mask of all ones. -/
theorem wordField_and_255 (w : Word) (lo : Nat) : wordField w lo 8 &&& 255 = wordField w lo 8 := by
  have := wordField_lt w lo 8
  rw [show 255 = 2 ^ 8 - 1 from rfl, Nat.and_two_pow_sub_one_eq_mod, Nat.mod_eq_of_lt this]

/-- The five fields are the whole word. -/
theorem word_eq_of_fields {v w : Word} (h1 : fieldOp v = fieldOp w) (h2 : fieldCh v = fieldCh w)
    (h3 : fieldLo v = fieldLo w) (h4 : fieldLen v = fieldLen w) (h5 : fieldRsv v = fieldRsv w) : v = w := by
  simp only [fieldOp, fieldCh, fieldLo, fieldLen, fieldRsv, wordField_eq] at *
  apply BitVec.eq_of_toNat_eq
  have := w.isLt
  have := v.isLt
  omega

/-- A masked word compared with a pattern, field by field. -/
theorem masked_eq_iff (w m p : Word) : w &&& m = p ↔
    fieldOp w &&& fieldOp m = fieldOp p ∧ fieldCh w &&& fieldCh m = fieldCh p ∧ fieldLo w &&& fieldLo m = fieldLo p ∧
      fieldLen w &&& fieldLen m = fieldLen p ∧ fieldRsv w &&& fieldRsv m = fieldRsv p := by
  constructor
  · rintro rfl
    simp only [fieldOp, fieldCh, fieldLo, fieldLen, fieldRsv, wordField_and, and_self]
  · rintro ⟨h1, h2, h3, h4, h5⟩
    apply word_eq_of_fields <;> simp only [fieldOp, fieldCh, fieldLo, fieldLen, fieldRsv, wordField_and] at * <;>
      assumption

/-- A word whose reserved bits are 0 is the word assembled from its fields. -/
theorem assembleWord_fields (w : Word) (h : fieldRsv w = 0) :
    assembleWord (fieldOp w) (fieldCh w) (fieldLo w) (fieldLen w) = w := by
  have h1 := wordField_lt w 26 6
  have h2 := wordField_lt w 18 8
  have h3 := wordField_lt w 12 6
  have h4 := wordField_lt w 6 6
  have f := fields_assembleWord (op := fieldOp w) (c := fieldCh w) (lo := fieldLo w) (len := fieldLen w)
    (by unfold fieldOp; omega) (by unfold fieldCh; omega) (by unfold fieldLo; omega) (by unfold fieldLen; omega)
  exact word_eq_of_fields f.1 f.2.1 f.2.2.1 f.2.2.2.1 (f.2.2.2.2.trans h.symm)

end Sys2Proof.Laws
end

