-- ==== Sys2Proof/Laws/Packet.lean ====
section
/-! SUPPORT. The laws of the packet register's operations and of the two conversions: each write's effect bit by bit, each
read's value as a slice of the register. -/

namespace Sys2Proof.Machine

/-! ## Conversions -/

@[simp] theorem bitsToInt_nil : bitsToInt [] = 0 := rfl

theorem bitsToInt_cons (b : Bool) (bs : List Bool) : bitsToInt (b :: bs) = b.toNat + 2 * bitsToInt bs := rfl

/-- Bit `i` of the value is item `i`; there are no bits beyond the items. -/
theorem testBit_bitsToInt (bs : List Bool) (i : Nat) : (bitsToInt bs).testBit i = (bs[i]?).getD false := by
  induction bs generalizing i with
  | nil => simp
  | cons b bs ih =>
    rw [bitsToInt_cons]
    cases i with
    | zero => cases b <;> simp [Nat.testBit_zero, Nat.add_mod]
    | succ i =>
      rw [Nat.testBit_succ, List.getElem?_cons_succ, ← ih]
      congr 1
      cases b
      · simp
      · simp; omega

theorem bitsToInt_lt (bs : List Bool) : bitsToInt bs < 2 ^ bs.length := by
  induction bs with
  | nil => simp
  | cons b bs ih =>
    rw [bitsToInt_cons, List.length_cons, pow_succ]
    cases b <;> simp <;> omega

@[simp] theorem length_intToBits (v len : Nat) : (intToBits v len).length = len := by simp [intToBits]

theorem getElem?_intToBits (v len i : Nat) :
    (intToBits v len)[i]? = if i < len then some (v.testBit i) else none := by
  unfold intToBits
  by_cases h : i < len <;> simp [h]

/-! ## Writing the packet register -/

theorem getLsbD_setPacketBit (p : Packet) (i : Nat) (b : Bool) (k : Nat) (hk : k < 54) :
    (setPacketBit p i b).getLsbD k = if k = i then b else p.getLsbD k := by
  have hone : ((1 : Packet) <<< i).getLsbD k = decide (k = i) := by
    rw [BitVec.getLsbD_shiftLeft]
    rcases Nat.lt_trichotomy k i with h | h | h
    · simp [h, Nat.ne_of_lt h]
    · subst h; simp [hk]
    · simp [hk, Nat.not_lt.2 (Nat.le_of_lt h), Nat.ne_of_gt h, BitVec.getLsbD_one, Nat.sub_ne_zero_of_lt h]
  unfold setPacketBit
  cases b
  · rw [if_neg (by simp), BitVec.getLsbD_and, BitVec.getLsbD_not, hone]
    by_cases h : k = i <;> simp [h, hk]
  · rw [if_pos rfl, BitVec.getLsbD_or, hone]
    by_cases h : k = i <;> simp [h]

/-- Everything `writePacketBits` does. -/
theorem getLsbD_writePacketBits (p : Packet) (lo : Nat) (bs : List Bool) (k : Nat) (hk : k < 54) :
    (writePacketBits p lo bs).getLsbD k =
      if lo ≤ k ∧ k < lo + bs.length then (bs[k - lo]?).getD false else p.getLsbD k := by
  induction bs generalizing p lo with
  | nil => simp [writePacketBits, show ¬ (lo ≤ k ∧ k < lo) by omega]
  | cons b bs ih =>
    rw [writePacketBits, ih, getLsbD_setPacketBit p lo b k hk]
    by_cases h : k = lo
    · subst h; simp
    · by_cases h1 : lo + 1 ≤ k
      · have h3 : k - lo = k - (lo + 1) + 1 := by omega
        by_cases h2 : k < lo + 1 + bs.length
        · simp [h1, h2, h3, show lo ≤ k by omega, show k < lo + (bs.length + 1) by omega]
        · simp [h, h2, show ¬ k < lo + (bs.length + 1) by omega]
      · simp [h, h1, show ¬ lo ≤ k by omega]

/-- Everything a setter does to the packet register. -/
theorem getLsbD_withField (p : Packet) (lo len v k : Nat) (hk : k < 54) :
    (withField p lo len v).getLsbD k = if lo ≤ k ∧ k < lo + len then v.testBit (k - lo) else p.getLsbD k := by
  rw [withField, getLsbD_writePacketBits _ _ _ _ hk, length_intToBits, getElem?_intToBits]
  by_cases h : lo ≤ k ∧ k < lo + len
  · simp [h, show k - lo < len by omega]
  · simp [h]

/-! ## Reading the packet register -/

@[simp] theorem length_readPacketBits (p : Packet) (lo len : Nat) : (readPacketBits p lo len).length = len := by
  simp [readPacketBits]

theorem testBit_fieldValue (p : Packet) (lo len i : Nat) :
    (fieldValue p lo len).testBit i = (decide (i < len) && p.getLsbD (lo + i)) := by
  rw [fieldValue, testBit_bitsToInt, readPacketBits]
  by_cases h : i < len <;> simp [h]

theorem fieldValue_lt (p : Packet) (lo len : Nat) : fieldValue p lo len < 2 ^ len := by
  simpa [fieldValue] using bitsToInt_lt (readPacketBits p lo len)

/-- A field's value as a slice of the register read as one number. -/
theorem fieldValue_eq (p : Packet) (lo len : Nat) : fieldValue p lo len = p.toNat / 2 ^ lo % 2 ^ len := by
  apply Nat.eq_of_testBit_eq
  intro i
  rw [testBit_fieldValue, Nat.testBit_mod_two_pow, ← Nat.shiftRight_eq_div_pow, Nat.testBit_shiftRight,
    BitVec.testBit_toNat]

/-- Reading a field that lies in the packet after writing it gives the value truncated to the field. -/
theorem fieldValue_withField (p : Packet) (lo len v : Nat) (h : lo + len ≤ 54) :
    fieldValue (withField p lo len v) lo len = v % 2 ^ len := by
  apply Nat.eq_of_testBit_eq
  intro i
  rw [testBit_fieldValue, Nat.testBit_mod_two_pow]
  by_cases hi : i < len
  · rw [getLsbD_withField _ _ _ _ _ (by omega)]
    simp [hi]
  · simp [hi]

/-! ## Parity -/

/-- The parity function does not look at offset 53. -/
theorem computeParity_congr (p q : Packet) (h : ∀ i < 53, p.getLsbD i = q.getLsbD i) :
    computeParity p = computeParity q := by
  unfold computeParity
  have : ∀ (l : List Nat), (∀ i ∈ l, i < 53) → ∀ a : Bool,
      l.foldl (fun acc i => acc ^^ p.getLsbD i) a = l.foldl (fun acc i => acc ^^ q.getLsbD i) a := by
    intro l
    induction l with
    | nil => intros; rfl
    | cons i l ih =>
      intro hl a
      rw [List.foldl_cons, List.foldl_cons, h i (hl i (by simp)), ih (fun j hj => hl j (by simp [hj]))]
  exact this _ (fun i hi => by simpa using hi) _

/-- A chain of exclusive ors tells whether the number of ones among its items is odd. -/
theorem foldl_xor_eq (f : Nat → Bool) (l : List Nat) (a : Bool) :
    l.foldl (fun acc i => acc ^^ f i) a = (a ^^ decide ((l.filter f).length % 2 = 1)) := by
  induction l generalizing a with
  | nil => simp
  | cons i l ih =>
    rw [List.foldl_cons, ih]
    cases h : f i
    · simp [h]
    · rw [List.filter_cons_of_pos h, List.length_cons]
      rcases Nat.mod_two_eq_zero_or_one (l.filter f).length with h2 | h2 <;> cases a <;> simp [Nat.add_mod, h2]

/-- The parity function is 1 exactly where the number of 1-bits among offsets 0–52 is even. -/
theorem computeParity_eq (p : Packet) :
    computeParity p = decide (((List.range 53).filter (fun i => p.getLsbD i)).length % 2 = 0) := by
  have h := foldl_xor_eq (fun i => p.getLsbD i) (List.range 53) true
  unfold computeParity
  rw [h]
  rcases Nat.mod_two_eq_zero_or_one ((List.range 53).filter (fun i => p.getLsbD i)).length with h2 | h2 <;> simp [h2]

end Sys2Proof.Machine
end

