-- ==== Sys2Proof/Laws/Framing.lean ====
section
/-! SUPPORT. The laws of the framed packet and of the samples EXTRACT reads. -/

namespace Sys2Proof.Machine

theorem bitsPerBaud_samples_cases (b : BitsPerBaud) : b.samples = 1 ∨ b.samples = 4 := by
  cases b <;> simp [BitsPerBaud.samples]

@[simp] theorem length_frameSamples (p : Packet) (b : Nat) : (frameSamples p b).length = 56 * b := by
  simp [frameSamples]

/-- Sample `t · b + k` of the framed packet holds logical bit `t`. -/
theorem getElem?_frameSamples (p : Packet) (b t k : Nat) (ht : t < 56) (hk : k < b) :
    (frameSamples p b)[t * b + k]? = some (frameBit p t) := by
  have h1 : t * b + k < 56 * b := by nlinarith
  have h2 : (t * b + k) / b = t := by
    rw [Nat.add_comm, Nat.add_mul_div_right _ _ (by omega), Nat.div_eq_of_lt hk, Nat.zero_add]
  unfold frameSamples
  rw [List.getElem?_map, List.getElem?_range h1, Option.map_some, h2]

/-- A packet written bit by bit from a function has the function's bits. -/
theorem getLsbD_writePacketBits_range (p : Packet) (f : Nat → Bool) (i : Nat) (hi : i < 54) :
    (writePacketBits p 0 ((List.range 54).map f)).getLsbD i = f i := by
  rw [getLsbD_writePacketBits _ _ _ _ hi, if_pos (by simp [hi])]
  simp [hi]

theorem State.mem_extractCells (s : State) (c : Nat) (x : Nat × Nat) :
    x ∈ s.extractCells c ↔ ∃ i < 54, x = (c, s.extractIndex i) := by
  simp [State.extractCells, eq_comm]

end Sys2Proof.Machine
end

