-- ==== Sys2Proof/Laws/PacketFields.lean ====
section
/-! SUPPORT. The laws of the test counter and of the packet types' names. -/

namespace Sys2Proof.Machine

/-- The test counter's value from the two slices of the register. -/
theorem testCounter_eq (p : Packet) :
    testCounter p = p.toNat / 2 ^ 41 % 2 ^ 12 + 2 ^ 12 * (p.toNat / 2 ^ 10 % 2 ^ 4) := by
  unfold testCounter
  rw [Nat.lor_comm, ← Nat.shiftLeft_add_eq_or_of_lt (fieldValue_lt p 41 12), fieldValue_eq, fieldValue_eq,
    Nat.shiftLeft_eq]
  omega

/-- Everything writing the test counter does to the packet register. -/
theorem getLsbD_withTestCounter (p : Packet) (v k : Nat) (hk : k < 54) :
    (withTestCounter p v).getLsbD k =
      if 41 ≤ k ∧ k < 41 + 12 then v.testBit (k - 41)
      else if 10 ≤ k ∧ k < 10 + 4 then v.testBit (12 + (k - 10))
      else p.getLsbD k := by
  unfold withTestCounter
  rw [getLsbD_withField _ _ _ _ _ hk, getLsbD_withField _ _ _ _ _ hk, Nat.testBit_shiftRight]
  by_cases h : 10 ≤ k ∧ k < 10 + 4
  · rw [if_pos h, if_neg (by omega), if_pos h]
  · rw [if_neg h, if_neg h]

/-- A legal `PTYPE_CODE` names each type's code as that type. -/
theorem typeOf_code (k : PacketTypeCode) (h : k.legal = true) (ty : PacketType) : k.typeOf (k.code ty) = ty := by
  obtain ⟨a, b, c, d⟩ := k
  revert h
  cases ty <;> revert a b c d <;> decide

end Sys2Proof.Machine
end

