-- ==== Sys2Proof/Laws/Step.lean ====
section
/-! SUPPORT. Everything a step can do when it answers a next state. -/

namespace Sys2Proof.Machine

/-- A step that answers a next state was idle, or did one host interaction: a command word that decodes ran its command,
one that does not raised `IllegalCommand`. -/
theorem step_next_cases {s t : State} (h : step s = .next t) :
    (s.pending = [] ∧ t = s) ∨
    (∃ v rest, s.pending = .writeArg v :: rest ∧ t = s.popInteraction.hostWriteArg v) ∨
    (∃ rest, s.pending = .readResult :: rest ∧ t = s.popInteraction.hostReadResult) ∨
    (∃ rest, s.pending = .readStatus :: rest ∧ t = s.popInteraction.hostReadStatus) ∨
    (∃ rest, s.pending = .reset :: rest ∧ t = s.popInteraction.hostReset) ∨
    (∃ w din rest, s.pending = .command w din :: rest ∧
      ((∃ i, decode w = .ok i ∧ exec i (s.beginCommand din) = .next t) ∨
        (∃ e, decode w = .error e ∧ t = (s.beginCommand din).illegalCommand))) := by
  unfold step at h
  split at h
  · exact .inl ⟨by assumption, (Host.Outcome.next.inj h).symm⟩
  · exact .inr (.inl ⟨_, _, by assumption, (Host.Outcome.next.inj h).symm⟩)
  · exact .inr (.inr (.inl ⟨_, by assumption, (Host.Outcome.next.inj h).symm⟩))
  · exact .inr (.inr (.inr (.inl ⟨_, by assumption, (Host.Outcome.next.inj h).symm⟩)))
  · exact .inr (.inr (.inr (.inr (.inl ⟨_, by assumption, (Host.Outcome.next.inj h).symm⟩))))
  · refine .inr (.inr (.inr (.inr (.inr ⟨_, _, _, by assumption, ?_⟩))))
    split at h
    · exact .inl ⟨_, by assumption, h⟩
    · exact .inr ⟨_, by assumption, (Host.Outcome.next.inj h).symm⟩

end Sys2Proof.Machine
end

