-- ==== Sys2Proof/Tests/Slice0.lean ====
section
/-! SUPPORT. The model's own tests. Expected results come from spec/95_test_vectors.md (V, E and P numbers) and from the
rules' own examples; each test names its source. A witness shows that the hypotheses of a statement can be met. -/

namespace Sys2Proof.Tests

-- One theorem at a time: each waits for the kernel, and a hundred waiting threads do not fit the memory limit.
set_option Elab.async false

open Sys2Proof.Machine Sys2Proof.Claims

/-! ## Ill-formed commands: one for each check (R82: the assembler refuses `c > 255`, `lo > 63`, `len > 63`) -/

theorem test_channel_256_ill_formed : WellFormed (.setClockPattern 256) = false := by decide
theorem test_embed_channel_256_ill_formed : WellFormed (.embed 256) = false := by decide
theorem test_start_64_ill_formed : WellFormed (.fieldGet 64 1) = false := by decide
theorem test_field_length_64_ill_formed : WellFormed (.fieldSet 0 64) = false := by decide
theorem test_length_64_ill_formed : WellFormed (.intToBits 64) = false := by decide
theorem test_largest_operands_well_formed :
    WellFormed (.extract 255) = true ∧ WellFormed (.fieldGet 63 63) = true ∧ WellFormed (.bitsToInt 63) = true := by decide

/-! ## Decoding: a word written bit by bit from the patterns of R80, for every command -/

theorem test_decode_store :
    decode 0b00000100000000000000000000000000 = .ok .initHigh ∧
    decode 0b00001000000000000000000000000000 = .ok .initLow ∧
    decode 0b00001100000000000000000000000000 = .ok .toBytes ∧
    decode 0b00010000000000000000000000000000 = .ok .fromBytes ∧
    decode 0b00010110000001000000000000000000 = .ok (.setChannelBitstream 129) ∧
    decode 0b00011000000101000000000000000000 = .ok (.getChannelBitstream 5) ∧
    decode 0b00011111111111000000000000000000 = .ok (.setClockPattern 255) := by decide

theorem test_decode_bitfield :
    decode 0b00100000000000000000100001000000 = .ok (.intToBits 33) ∧
    decode 0b00100100000000000000000100000000 = .ok (.bitsToInt 4) ∧
    decode 0b00101000000000101010001101000000 = .ok (.fieldGet 42 13) ∧
    decode 0b00101100000000110010000001000000 = .ok (.fieldSet 50 1) ∧
    decode 0b00110000000000000000000000000000 = .ok .pktClear := by decide

theorem test_decode_data_fields :
    decode 0b01000000000000000000000000000000 = .ok .getPacketType ∧
    decode 0b01000100000000000000000000000000 = .ok .setPacketType ∧
    decode 0b01001000000000000000000000000000 = .ok .getChipid ∧
    decode 0b01001100000000000000000000000000 = .ok .setChipid ∧
    decode 0b01010000000000000000000000000000 = .ok .getChannelid ∧
    decode 0b01010100000000000000000000000000 = .ok .setChannelid ∧
    decode 0b01011000000000000000000000000000 = .ok .getTimestamp ∧
    decode 0b01011100000000000000000000000000 = .ok .setTimestamp ∧
    decode 0b01100000000000000000000000000000 = .ok .getDataword ∧
    decode 0b01100100000000000000000000000000 = .ok .setDataword ∧
    decode 0b01101000000000000000000000000000 = .ok .getFifoHalf ∧
    decode 0b01101100000000000000000000000000 = .ok .setFifoHalf ∧
    decode 0b01110000000000000000000000000000 = .ok .getFifoFull ∧
    decode 0b01110100000000000000000000000000 = .ok .setFifoFull := by decide

theorem test_decode_config_test_fields :
    decode 0b01111000000000000000000000000000 = .ok .getRegister ∧
    decode 0b01111100000000000000000000000000 = .ok .setRegister ∧
    decode 0b10000000000000000000000000000000 = .ok .getRegisterData ∧
    decode 0b10000100000000000000000000000000 = .ok .setRegisterData ∧
    decode 0b10001000000000000000000000000000 = .ok .getTestCounter ∧
    decode 0b10001100000000000000000000000000 = .ok .setTestCounter := by decide

theorem test_decode_parity_framing :
    decode 0b10010000000000000000000000000000 = .ok .getParity ∧
    decode 0b10010100000000000000000000000000 = .ok .forceSetParity ∧
    decode 0b10011000000000000000000000000000 = .ok .computeParity ∧
    decode 0b10011100000000000000000000000000 = .ok .setParity ∧
    decode 0b10100000000000000000000000000000 = .ok .checkParity ∧
    decode 0b11000000000001000000000000000000 = .ok (.embed 1) ∧
    decode 0b11000100000001000000000000000000 = .ok (.extract 1) := by decide

/-- V90 to V95: reserved opcodes. -/
theorem test_reserved_opcodes :
    decode 0x00000000 = .error .reservedOpcode ∧ decode 0x34000000 = .error .reservedOpcode ∧
    decode 0x3C000000 = .error .reservedOpcode ∧ decode 0xA4000000 = .error .reservedOpcode ∧
    decode 0xC8000000 = .error .reservedOpcode ∧ decode 0xFC000000 = .error .reservedOpcode := by decide

/-- V96 to V101: a non-zero field the class does not use, one for each field and class. -/
theorem test_unused_fields :
    decode 0x04000001 = .error .unusedFieldNonZero ∧ decode 0x0C040000 = .error .unusedFieldNonZero ∧
    decode 0x14001000 = .error .unusedFieldNonZero ∧ decode 0x20001200 = .error .unusedFieldNonZero ∧
    decode 0x28000001 = .error .unusedFieldNonZero ∧ decode 0x48000040 = .error .unusedFieldNonZero := by decide

/-- The examples of R84. -/
theorem test_encode_examples :
    encode (.embed 1) = 0xC0040000 ∧ encode (.fieldGet 2 8) = 0x28002200 ∧ encode (.intToBits 8) = 0x20000200 ∧
    encode (.setClockPattern 0) = 0x1C000000 := by decide

theorem test_decodeTableWord :
    decodeTableWord 32 0x28002200 = some (.fieldGet 2 8) ∧ decodeTableWord 32 0 = none := by decide

/-! ## Helpers -/

/-- The state after reset with `ARG` and `P` set. -/
def st (arg : Word) (p : Packet) : State := { State.reset with arg := arg, packet := p }

/-- The state after reset with some samples `S[c][j] = b` written, given by rising address. -/
def withSamples (arg : Word) (cells : List (Nat × Nat × Bool)) : State :=
  { State.reset with arg := arg, samples := cells.map (fun x => (sampleAddress x.1 x.2.1, sampleByte x.2.2)) }

def next? : Host.Outcome State Fault Refusal → Option State
  | .next t => some t
  | .fault _ => none
  | .refused _ => none

def fault? : Host.Outcome State Fault Refusal → Option Fault
  | .next _ => none
  | .fault r => some r
  | .refused _ => none

/-- `STATUS`, `RESULT` and the last response after a command. -/
def seen (o : Host.Outcome State Fault Refusal) : Option (Word × Word × Option Response) :=
  (next? o).map (fun t => (t.status, t.result, t.responses.getLast?))

/-- `STATUS` and `P` after a command. -/
def seenPacket (o : Host.Outcome State Fault Refusal) : Option (Word × Packet) :=
  (next? o).map (fun t => (t.status, t.packet))

/-- `S[c][j]` in byte form for each cell of a list after a command. -/
def seenSamples (o : Host.Outcome State Fault Refusal) (cells : List (Nat × Nat)) : Option (List (Option Byte)) :=
  (next? o).map (fun t => cells.map (fun x => Memory.read t.samples (sampleAddress x.1 x.2)))

/-! ## The sample store -/

/-- R106, at two cells. -/
theorem test_initHigh : ∃ t, exec .initHigh (st 0 0) = .next t ∧ t.status = 0 ∧
    t.sample 0 0 = true ∧ t.sample 7 1023 = true :=
  ⟨_, exec_initHigh _, rfl, (State.sample_fillSamples _ true 0 0 (by decide) (by decide)).1,
    (State.sample_fillSamples _ true 7 1023 (by decide) (by decide)).1⟩

/-- R107, over a sample that was 1. -/
theorem test_initLow : ∃ t, exec .initLow (withSamples 0 [(3, 5, true)]) = .next t ∧ t.sample 3 5 = false :=
  ⟨_, exec_initLow _, (State.sample_fillSamples _ false 3 5 (by decide) (by decide)).1⟩

/-- V6's byte for index 1: `S[0][1] = 1`, `S[3][1] = 1` give `09`; index 0 gives `08`. -/
theorem test_toBytes : seen (exec .toBytes (withSamples 2 [
      (0, 0, false), (0, 1, true), (1, 0, false), (1, 1, false), (2, 0, false), (2, 1, false), (3, 0, true), (3, 1, true),
      (4, 0, false), (4, 1, false), (5, 0, false), (5, 1, false), (6, 0, false), (6, 1, false),
      (7, 0, false), (7, 1, false)])) = some (0, 0, some (.dout [0x08, 0x09])) := by decide +kernel

/-- V19: a read of an unwritten cell is recorded, completes with `OK` and gives one byte. -/
theorem test_toBytes_records : (next? (exec .toBytes (st 1 0))).map (fun t => (t.status, t.uninitSampleRead)) =
    some (0, true) := by decide +kernel

/-- V7. -/
theorem test_fromBytes : seenSamples (exec .fromBytes { st 2 0 with din := [0xA5, 0x01] })
      [(0, 0), (1, 0), (2, 0), (3, 0), (4, 0), (5, 0), (6, 0), (7, 0), (0, 1), (1, 1), (7, 1), (0, 2)] =
    some [some 1, some 0, some 1, some 0, some 0, some 1, some 0, some 1, some 1, some 0, some 0, none] := by
  decide +kernel

/-- V8, with a smaller count: one byte short is not admitted. -/
theorem test_fromBytes_short : fault? (exec .fromBytes { st 3 0 with din := [1, 1] }) = some .inputNotAdmitted := by decide +kernel

/-- V11. -/
theorem test_setChannelBitstream : seenSamples (exec (.setChannelBitstream 2) { st 3 0 with din := [0x00, 0x07, 0x01] })
      [(2, 0), (2, 1), (2, 2), (2, 3), (1, 1)] = some [some 0, some 1, some 1, none, none] := by decide +kernel

/-- V12 and V13: the channel check comes after admission. -/
theorem test_setChannelBitstream_bad_channel :
    next? (exec (.setChannelBitstream 8) { st 2 0 with din := [1, 1] }) =
      some { st 2 0 with status := 1, responses := [.dout []] } ∧
    fault? (exec (.setChannelBitstream 8) { st 2 0 with din := [1] }) = some .inputNotAdmitted := by decide +kernel

/-- V15 at two indices. -/
theorem test_getChannelBitstream : seen (exec (.getChannelBitstream 5) (withSamples 2 [(5, 0, false), (5, 1, true)])) =
    some (0, 0, some (.dout [0x00, 0x01])) := by decide +kernel

/-- V16. -/
theorem test_getChannelBitstream_bad_channel : seen (exec (.getChannelBitstream 8) (st 4 0)) =
    some (1, 0, some (.dout [])) := by decide

/-- V14. -/
theorem test_setClockPattern : seenSamples (exec (.setClockPattern 5) (st 0 0))
      [(5, 0), (5, 1), (5, 1022), (5, 1023), (4, 1023), (6, 0)] =
    some [some 0, some 1, some 0, some 1, none, none] := by decide +kernel

/-- V17. -/
theorem test_setClockPattern_bad_channel : seen (exec (.setClockPattern 255) (st 0 0)) = some (1, 0, some (.dout [])) := by
  decide

/-! ## The bitfield decoder -/

/-- V20 and V22. -/
theorem test_intToBits :
    seen (exec (.intToBits 8) (st 120 0)) = some (0, 0, some (.dout [0, 0, 0, 1, 1, 1, 1, 0])) ∧
    seen (exec (.intToBits 8) (st 0x1FF 0)) = some (0, 0, some (.dout [1, 1, 1, 1, 1, 1, 1, 1])) := by decide +kernel

/-- V24. -/
theorem test_intToBits_33 : seen (exec (.intToBits 33) (st 4 0)) = some (1, 0, some (.dout [])) := by decide

/-- V25, V27 and V28. -/
theorem test_bitsToInt :
    seen (exec (.bitsToInt 4) { st 0 0 with din := [1, 0, 0, 1] }) = some (0, 9, some (.dout [])) ∧
    seen (exec (.bitsToInt 2) { st 0 0 with din := [2, 0] }) = some (0, 1, some (.dout [])) ∧
    seen (exec (.bitsToInt 0) (st 0 0)) = some (0, 0, some (.dout [])) := by decide +kernel

/-- V29 and V30: 32 items are too few for a length of 33, and 33 give a range error with `RESULT` kept. -/
theorem test_bitsToInt_33 :
    fault? (exec (.bitsToInt 33) { st 0 0 with result := 1, din := List.replicate 32 1 }) = some .inputNotAdmitted ∧
    seen (exec (.bitsToInt 33) { st 0 0 with result := 1, din := List.replicate 33 1 }) =
      some (1, 1, some (.dout [])) := by decide +kernel

/-- P2 line 12: the worked check of `FIELD_GET 0, 32`. -/
theorem test_fieldGet : seen (exec (.fieldGet 0 32) (st 0 0x029415E3)) = some (0, 0x029415E3, some (.dout [])) := by
  decide +kernel

/-- V32, V33 and V35: the boundary of the range check. -/
theorem test_fieldGet_range :
    seen (exec (.fieldGet 54 0) (st 0 0)) = some (0, 0, some (.dout [])) ∧
    seen (exec (.fieldGet 63 0) (st 0 0)) = some (1, 0, some (.dout [])) ∧
    seen (exec (.fieldGet 23 32) (st 0 0)) = some (1, 0, some (.dout [])) := by decide +kernel

/-- V31. -/
theorem test_fieldSet : seenPacket (exec (.fieldSet 0 2) (st 7 0)) = some (0, 3) := by decide +kernel

/-- E3's `FIELD_SET 50, 1`, and a length of 33. -/
theorem test_fieldSet_50 :
    seenPacket (exec (.fieldSet 50 1) (st 1 0)) = some (0, 0x4000000000000) ∧
    seenPacket (exec (.fieldSet 0 33) (st 1 0)) = some (1, 0) := by decide +kernel

/-- V38. -/
theorem test_pktClear : seenPacket (exec .pktClear (st 0 0x3FFFFFFFFFFFFF)) = some (0, 0) := by decide +kernel

/-! ## The packet fields. `2 ^ n` in the comments is the bit at offset `n` of the packet. -/

/-- R174's example: `P[1] = 1` alone gives 2. -/
theorem test_getPacketType : seen (exec .getPacketType (st 0 2)) = some (0, 2, some (.dout [])) := by decide +kernel

/-- V40: 6 is truncated to 2. -/
theorem test_setPacketType : seenPacket (exec .setPacketType (st 6 0)) = some (0, 2) := by decide +kernel

/-- R176's example: offsets 2–9 of 120 · 2 ^ 2, all other offsets 1. -/
theorem test_getChipid : seen (exec .getChipid (st 0 (0x3FFFFFFFFFFC03 ||| 0x1E0))) = some (0, 120, some (.dout [])) := by
  decide +kernel

/-- E1: 120 at offsets 2–9; V41: 261 is truncated to 5. -/
theorem test_setChipid :
    seenPacket (exec .setChipid (st 120 0)) = some (0, 0x1E0) ∧ seenPacket (exec .setChipid (st 261 0)) = some (0, 0x14) := by
  decide +kernel

/-- V50: after SET_REGISTER 255 the channel id reads 0x7F. -/
theorem test_getChannelid : seen (exec .getChannelid (st 0 0x3FC00)) = some (0, 0x7F, some (.dout [])) := by decide +kernel

/-- V42 and V43. -/
theorem test_setChannelid :
    seenPacket (exec .setChannelid (st 31 0)) = some (0, 0x7C00) ∧ seenPacket (exec .setChannelid (st 128 0)) = some (0, 0) := by
  decide +kernel

/-- R180's example: `P[40]` alone; V50: offset 17 is the timestamp's bit 0. -/
theorem test_getTimestamp :
    seen (exec .getTimestamp (st 0 0x10000000000)) = some (0, 0x800000, some (.dout [])) ∧
    seen (exec .getTimestamp (st 0 0x3FC00)) = some (0, 1, some (.dout [])) := by decide +kernel

/-- V45: offsets 17–40. -/
theorem test_setTimestamp : seenPacket (exec .setTimestamp (st 0xFFFFFFFF 0)) = some (0, 0x1FFFFFE0000) := by decide +kernel

/-- R182's example. -/
theorem test_getDataword : seen (exec .getDataword (st 0 0x7FE0000000000)) = some (0, 1023, some (.dout [])) := by
  decide +kernel

/-- V46 and V55: offsets 41–50, on a ConfigWrite packet as well. -/
theorem test_setDataword : seenPacket (exec .setDataword (st 0x7FF 2)) = some (0, 0x7FE0000000002) := by decide +kernel

/-- `P[51]` alone. -/
theorem test_getFifoHalf : seen (exec .getFifoHalf (st 0 0x8000000000000)) = some (0, 1, some (.dout [])) := by
  decide +kernel

/-- V47 and R185's example. -/
theorem test_setFifoHalf :
    seenPacket (exec .setFifoHalf (st 2 0)) = some (0, 0) ∧
    seenPacket (exec .setFifoHalf (st 1 0)) = some (0, 0x8000000000000) := by decide +kernel

/-- R186's example: `P[52]` alone. -/
theorem test_getFifoFull : seen (exec .getFifoFull (st 0 0x10000000000000)) = some (0, 1, some (.dout [])) := by
  decide +kernel

/-- V48. -/
theorem test_setFifoFull : seenPacket (exec .setFifoFull (st 3 0)) = some (0, 0x10000000000000) := by decide +kernel

/-- R188's example: 5 at offsets 10–17. -/
theorem test_getRegister : seen (exec .getRegister (st 0 0x1400)) = some (0, 5, some (.dout [])) := by decide +kernel

/-- V49: 62 at offsets 10–17; R189: 0x105 stores 5. -/
theorem test_setRegister :
    seenPacket (exec .setRegister (st 62 0)) = some (0, 0xF800) ∧
    seenPacket (exec .setRegister (st 0x105 0)) = some (0, 0x1400) := by decide +kernel

/-- R190's example: 0xA5 at offsets 18–25. -/
theorem test_getRegisterData : seen (exec .getRegisterData (st 0 0x2940000)) = some (0, 0xA5, some (.dout [])) := by
  decide +kernel

/-- V51: 0x1A5 stores 0xA5. -/
theorem test_setRegisterData : seenPacket (exec .setRegisterData (st 0x1A5 0)) = some (0, 0x2940000) := by decide +kernel

/-- E3 and V54: `P[50] = 1` and `P[10] = 1` give 4608. -/
theorem test_getTestCounter : seen (exec .getTestCounter (st 0 0x4000000000400)) = some (0, 4608, some (.dout [])) := by
  decide +kernel

/-- V52 and V53: 0xBCD at offsets 41–52, 0xA at 10–13; bit 16 is dropped. -/
theorem test_setTestCounter :
    seenPacket (exec .setTestCounter (st 0xABCD 0)) = some (0, 0x179A0000002800) ∧
    seenPacket (exec .setTestCounter (st 0x1ABCD 0)) = some (0, 0x179A0000002800) := by decide +kernel

/-! ## Parity -/

/-- V37: the stored bit, offset 53. -/
theorem test_getParity : seen (exec .getParity (st 0 0x20000000000000)) = some (0, 1, some (.dout [])) := by decide +kernel

/-- V65 and V66. -/
theorem test_forceSetParity :
    seenPacket (exec .forceSetParity (st 1 0)) = some (0, 0x20000000000000) ∧
    seenPacket (exec .forceSetParity (st 2 0x20000000000000)) = some (0, 0) := by decide +kernel

/-- V60 and V63. -/
theorem test_computeParity :
    seen (exec .computeParity (st 0 0)) = some (0, 1, some (.dout [])) ∧
    seen (exec .computeParity (st 0 0x1FFFFFFFFFFFFF)) = some (0, 0, some (.dout [])) := by decide +kernel

/-- V62, and V67: a second SET_PARITY changes nothing. -/
theorem test_setParity :
    seenPacket (exec .setParity (st 0 0)) = some (0, 0x20000000000000) ∧
    seenPacket (exec .setParity (st 0 0x20000000000000)) = some (0, 0x20000000000000) := by decide +kernel

/-- V61, V62 and V64. -/
theorem test_checkParity :
    seen (exec .checkParity (st 0 0)) = some (0, 1, some (.dout [])) ∧
    seen (exec .checkParity (st 0 0x20000000000000)) = some (0, 0, some (.dout [])) ∧
    seen (exec .checkParity (st 0 0x1FFFFFFFFFFFFF)) = some (0, 0, some (.dout [])) := by decide +kernel

/-! ## Framing -/

/-- V70: `S[1][0..215] = 0`, `S[1][216..223] = 1`, at the ends of each run; the neighbours are not written. -/
theorem test_embed : seenSamples (exec (.embed 1) (st 0 0x20000000000000))
      [(1, 0), (1, 3), (1, 4), (1, 215), (1, 216), (1, 219), (1, 220), (1, 223), (1, 224), (0, 1023), (2, 0)] =
    some [some 0, some 0, some 0, some 0, some 1, some 1, some 1, some 1, none, none, none] := by decide +kernel

/-- V72 to V75: 800 fits, 801 and 0xFFFFFFFF do not, channel 8 is none. -/
theorem test_embed_range :
    (seen (exec (.embed 1) (st 800 0))).map (·.1) = some 0 ∧ seen (exec (.embed 1) (st 801 0)) = some (1, 0, some (.dout [])) ∧
    seen (exec (.embed 1) (st 0xFFFFFFFF 0)) = some (1, 0, some (.dout [])) ∧
    seen (exec (.embed 8) (st 0 0)) = some (1, 0, some (.dout [])) := by decide +kernel

/-- V71: EXTRACT after that EMBED, with `P` cleared in between, gives the packet back and records nothing. -/
theorem test_extract :
    ((next? (exec (.embed 1) (st 0 0x20000000000000))).bind (fun t => next? (exec (.extract 1) (t.setPacket 0)))).map
      (fun t => (t.status, t.packet, t.uninitSampleRead)) = some (0, 0x20000000000000, false) := by decide +kernel

/-- V79 with `BPB = 1`: chip id 120 with its parity bit at 968, sample by sample; V80: 969 does not fit. -/
theorem test_embed_simplified :
    seenSamples (exec (.embed 0) { st 968 0x200000000001E0 with build := { Params.canonical with bitsPerBaud := .one } })
      [(0, 967), (0, 968), (0, 973), (0, 974), (0, 977), (0, 978), (0, 1021), (0, 1022), (0, 1023)] =
      some [none, some 0, some 0, some 1, some 1, some 0, some 0, some 1, some 1] ∧
    seen (exec (.embed 0) { st 969 0 with build := { Params.canonical with bitsPerBaud := .one } }) =
      some (1, 0, some (.dout [])) := by decide +kernel

/-! ## The host's interactions -/

/-- V90: an illegal word; `RESULT` is kept and no input is taken. -/
theorem test_illegal_word :
    seen (step { State.reset with result := 0xBCD, pending := [.command 0 [1, 2]] }) = some (2, 0xBCD, some (.dout [])) := by
  decide

/-- R290: a write of `ARG`, and a read of `STATUS` that does not clear it. -/
theorem test_host :
    (next? (step { State.reset with pending := [.writeArg 120] })).map (·.arg) = some 120 ∧
    seen (step { State.reset with status := 1, pending := [.readStatus] }) = some (1, 0, some (.status 1)) ∧
    seen (step { State.reset with result := 9, pending := [.readResult] }) = some (0, 9, some (.result 9)) := by decide

/-- R300: a reset interaction. -/
theorem test_reset_interaction :
    (next? (step { st 7 5 with samples := [(0, 1)], status := 1, result := 3, pending := [.reset] })).map
      (fun t => (t.arg, t.packet, t.status, t.result, t.sampleValid 0 0)) = some (0, 0, 0, 0, false) := by decide

/-- A word given to the fetch is the next step's command: FROM_BYTES, and a BITS_TO_INT of the longest `LEN`. -/
theorem test_withFetchWord :
    (next? (step (State.reset.withFetchWord 32 0x10000000))).isSome = true ∧
    (next? (step (State.reset.withFetchWord 32 0x24000FC0))).isSome = true := by decide

/-- R83: the expansion of `RECV 1, 0` (P2 lines 1 to 3). -/
theorem test_assemble_recv :
    assemble (.recv 1 0) = some [.writeArg 0, .command 0xC4040000 [], .command 0xA0000000 []] := by decide

/-- R82: an operand that does not fit its field is refused. -/
theorem test_assemble_refuses : assemble (.send 256 0) = none ∧ assemble (.command (.fieldGet 64 1) none []) = none := by
  decide

/-! ## Witnesses: states and operands that meet a statement's hypotheses, at the boundary of each clause -/

/-- After reset, with one command pending. -/
def sending (w : Word) (din : List Byte) : State := { State.reset with pending := [.command w din, .readStatus] }

/-- `ARG` set and `n` input items at the block. -/
def withDin (arg : Word) (n : Nat) : State := { State.reset with arg := arg, din := List.replicate n 1 }

theorem witness_DecodeOfEncode :
    WellFormed .initHigh = true ∧ WellFormed (.setChannelBitstream 255) = true ∧ WellFormed (.intToBits 63) = true ∧
    WellFormed (.fieldSet 63 63) = true := by decide

theorem witness_EncodeOfDecode : decode 0x28002200 = .ok (.fieldGet 2 8) ∧ decode 0x1FFC0000 = .ok (.setClockPattern 255) := by
  decide

theorem witness_CommandWordLegality :
    (∃ r ∈ opcodeMap, (0x1FFC0000 : Word) &&& r.mask = r.pattern) ∧
    (sending 0x04000001 [1]).pending = .command 0x04000001 [1] :: [.readStatus] ∧
    (∀ r ∈ opcodeMap, (0x04000001 : Word) &&& r.mask ≠ r.pattern) := by decide

theorem witness_OpcodeMapRows :
    (∃ r ∈ opcodeMap, r.mnemonic = "EXTRACT" ∧ (0xC7FC0000 : Word) &&& r.mask = r.pattern) ∧
    decode 0xC7FC0000 = .ok (.extract 255) := by decide

theorem witness_IllegalCommandCauses :
    (sending 0 [1]).pending = .command 0 [1] :: [.readStatus] ∧ decode 0 = .error .reservedOpcode ∧
    decode 0x48000001 = .error .unusedFieldNonZero := by decide

theorem witness_StepRunsDecodedCommand :
    (sending 0xC0040000 []).pending = .command 0xC0040000 [] :: [.readStatus] ∧ decode 0xC0040000 = .ok (.embed 1) := by decide

/-- One state for each row of R290. -/
theorem witness_HostInteractions :
    { State.reset with pending := [.writeArg 5] }.pending = [.writeArg 5] ∧
    (sending 0x30000000 []).pending = [.command 0x30000000 [], .readStatus] ∧ decode 0x30000000 = .ok .pktClear ∧
    (sending 0 []).pending = [.command 0 [], .readStatus] ∧ decode 0 = .error .reservedOpcode ∧
    (∃ t, step (sending 0x30000000 []) = .next t) ∧
    { State.reset with pending := [.readResult] }.pending = [.readResult] ∧
    { State.reset with pending := [.readStatus] }.pending = [.readStatus] ∧
    { State.reset with pending := [.reset] }.pending = [.reset] := by
  refine ⟨rfl, rfl, by decide, rfl, by decide, ⟨_, rfl⟩, rfl, rfl, rfl⟩

theorem witness_IdleWithoutInteraction : State.reset.pending = [] := rfl

theorem witness_ResetValues : { st 7 5 with pending := [.reset] }.pending = .reset :: [] := rfl

theorem witness_StepKeepsInv : State.reset.Inv ∧ (sending 0x30000000 []).Inv ∧ ∃ t, step (sending 0x30000000 []) = .next t :=
  ⟨by unfold State.Inv; decide, by unfold State.Inv; decide, _, rfl⟩

theorem witness_StepTakesOneInteraction : ∃ t, step (sending 0x98000000 []) = .next t := ⟨_, rfl⟩

theorem witness_ArgIsTheHosts : (∃ t, exec (.fieldSet 0 2) (st 7 0) = .next t) ∧
    { State.reset with pending := [.readResult] }.pending = .readResult :: [] ∧
    { State.reset with pending := [.readStatus] }.pending = .readStatus :: [] ∧
    { State.reset with pending := [.writeArg 5] }.pending = .writeArg 5 :: [] :=
  ⟨⟨_, exec_fieldSet _ (by decide) (by decide)⟩, rfl, rfl, rfl⟩

theorem witness_ArgReadOnlyWhereListed : readsArg .setParity = false ∧ readsArg (.setClockPattern 0) = false := by decide

theorem witness_ResultOnlyByGetters :
    isGetter .setParity = false ∧ (∃ t, exec .setParity State.reset = .next t) ∧
    (∃ t, exec (.fieldGet 23 32) State.reset = .next t ∧ t.status ≠ 0) ∧
    (∃ t, exec .getTimestamp State.reset = .next t) :=
  ⟨rfl, ⟨_, exec_setParity _⟩, ⟨_, exec_fieldGet_range _ (by decide), by decide⟩, ⟨_, exec_getTimestamp _⟩⟩

theorem witness_StatusAfterInteraction :
    (∃ t, exec .pktClear State.reset = .next t) ∧
    decode 0 = .error .reservedOpcode ∧ (∃ t, step (sending 0 []) = .next t) ∧
    (∃ t, step { State.reset with status := 1, pending := [.readStatus] } = .next t) :=
  ⟨⟨_, exec_pktClear _⟩, by decide, ⟨_, rfl⟩, ⟨_, rfl⟩⟩

theorem witness_BuildMattersOnlyToFraming : (∀ c, Instr.setParity ≠ .embed c) ∧ ∀ c, Instr.setParity ≠ .extract c := by
  constructor <;> intro c h <;> cases h

/-- Just enough input, and one item too few: a count of 3, a length of 33. -/
theorem witness_InputAdmission :
    need (withDin 3 3) .fromBytes ≤ (withDin 3 3).din.length ∧ (withDin 3 2).din.length < need (withDin 3 2) .fromBytes ∧
    need (withDin 3 3) (.setChannelBitstream 8) ≤ (withDin 3 3).din.length ∧
    (withDin 3 2).din.length < need (withDin 3 2) (.setChannelBitstream 8) ∧
    need (withDin 0 33) (.bitsToInt 33) ≤ (withDin 0 33).din.length ∧
    (withDin 0 32).din.length < need (withDin 0 32) (.bitsToInt 33) ∧
    need (withDin 2000 0) .fromBytes = 1024 := by decide +kernel

/-- Each cause of R273 just outside its range, and just inside. -/
theorem witness_RangeErrorCauses :
    rangeCause State.reset (.setClockPattern 8) ∧ ¬ rangeCause State.reset (.setClockPattern 7) ∧
    rangeCause State.reset (.intToBits 33) ∧ ¬ rangeCause State.reset (.intToBits 32) ∧
    rangeCause State.reset (.fieldGet 23 32) ∧ ¬ rangeCause State.reset (.fieldGet 22 32) ∧
    rangeCause State.reset (.fieldSet 0 33) ∧ ¬ rangeCause State.reset (.fieldSet 54 0) ∧
    rangeCause (st 801 0) (.embed 1) ∧ ¬ rangeCause (st 800 0) (.embed 1) ∧
    rangeCause (st 0xFFFFFFFF 0) (.extract 1) ∧ rangeCause State.reset (.extract 8) ∧
    need (st 801 0) (.embed 1) ≤ (st 801 0).din.length := by
  simp only [rangeCause]
  decide

theorem witness_NothingElseFails : need (st 5000 0) .toBytes ≤ (st 5000 0).din.length ∧ ¬ rangeCause (st 5000 0) .toBytes :=
  ⟨by decide, fun h => h⟩

theorem witness_ErrorChangesOnlyStatus :
    (∃ t, exec (.embed 8) (st 5 3) = .next t ∧ t.status ≠ 0) ∧ (∃ t, step (sending 0 []) = .next t ∧ t.status ≠ 0) ∧
    (sending 0 []).pending = .command 0 [] :: [.readStatus] ∧ decode 0 = .error .reservedOpcode :=
  ⟨⟨_, exec_embed_range _ (by decide), by decide⟩, ⟨_, rfl, by decide⟩, rfl, by decide⟩

/-- An illegal word; a legal one short of input, with a bad channel as well (V13); one with the input and the bad channel. -/
theorem witness_CheckOrder :
    decode 0x04240001 = .error .unusedFieldNonZero ∧
    decode 0x14200000 = .ok (.setChannelBitstream 8) ∧
    ([1] : List Byte).length < need (st 2 0) (.setChannelBitstream 8) ∧
    need (st 2 0) (.setChannelBitstream 8) ≤ ([1, 1] : List Byte).length ∧ rangeCause (st 2 0) (.setChannelBitstream 8) := by
  simp only [rangeCause]
  decide

theorem witness_CommandsIdempotent :
    Memory.wf State.reset.samples = true ∧ ∃ t, exec .setParity State.reset = .next t := ⟨rfl, _, exec_setParity _⟩

theorem witness_CommandsKeepSamplesValid :
    (∃ t, exec .initLow (withSamples 0 [(3, 5, true)]) = .next t) ∧ (withSamples 0 [(3, 5, true)]).sampleValid 3 5 = true :=
  ⟨⟨_, exec_initLow _⟩, by decide⟩

theorem witness_UninitRecordSticky :
    (∃ t, step { State.reset with uninitSampleRead := true, pending := [.reset] } = .next t) ∧
    { State.reset with uninitSampleRead := true, pending := [.reset] }.uninitSampleRead = true := ⟨⟨_, rfl⟩, rfl⟩

theorem witness_FillingWritesTheStore :
    (∃ t, exec .initHigh State.reset = .next t) ∧ (∃ t, exec .initLow State.reset = .next t) ∧
    (1024 ≤ (withDin 1024 1024).arg.toNat ∧ ∃ t, exec .fromBytes (withDin 1024 1024) = .next t) :=
  ⟨⟨_, exec_initHigh _⟩, ⟨_, exec_initLow _⟩, by decide, _, exec_fromBytes (by decide +kernel)⟩

/-- After INIT_HIGH every sample is written: FROM_BYTES, SET_CHANNEL_BITSTREAM and BITS_TO_INT with input, and TO_BYTES. -/
theorem witness_WrittenStoreNeverRecords :
    ((withDin 2 2).fillSamples true).build.legal = true ∧ ((withDin 2 2).fillSamples true).storeWritten ∧
    (∃ t, exec .fromBytes ((withDin 2 2).fillSamples true) = .next t) ∧
    (∃ t, exec (.setChannelBitstream 7) ((withDin 2 2).fillSamples true) = .next t) ∧
    (∃ t, exec (.bitsToInt 2) ((withDin 2 2).fillSamples true) = .next t) ∧
    (∃ t, exec .toBytes ((withDin 2 2).fillSamples true) = .next t) :=
  ⟨by decide, fun c j hc hj => (State.sample_fillSamples (withDin 2 2) true c j hc hj).2,
    ⟨_, exec_fromBytes (by decide)⟩, ⟨_, exec_setChannelBitstream (by decide) (by decide)⟩,
    ⟨_, exec_bitsToInt (by decide) (by decide)⟩, ⟨_, exec_toBytes _⟩⟩

/-- Its clause about a step: with the store filled, the next interaction is a BITS_TO_INT that carries input. -/
theorem witness_WrittenStoreNeverRecords_step :
    ((sending 0x24000080 [1, 1]).fillSamples true).build.legal = true ∧
    ((sending 0x24000080 [1, 1]).fillSamples true).storeWritten ∧
    (∀ rest, ((sending 0x24000080 [1, 1]).fillSamples true).pending ≠ .reset :: rest) ∧
    decode 0x24000080 = .ok (.bitsToInt 2) ∧ ∃ t, step ((sending 0x24000080 [1, 1]).fillSamples true) = .next t :=
  ⟨by decide, fun c j hc hj => (State.sample_fillSamples (sending 0x24000080 [1, 1]) true c j hc hj).2,
    fun rest h => (by cases h), by decide, _, rfl⟩

theorem witness_FromBytesUnpacksChannels :
    clamped (withDin 2 2) ≤ (withDin 2 2).din.length ∧ (withDin 2 1).din.length < clamped (withDin 2 1) ∧
    clamped (withDin 0xFFFFFFFF 0) = 1024 := by decide

theorem witness_SetChannelBitstreamWrites :
    clamped (withDin 2 2) ≤ (withDin 2 2).din.length ∧ (7 < 8 ∧ 8 ≤ 8) ∧ (255 : Nat) ≤ 255 := by decide

theorem witness_GetChannelBitstreamEmits : (7 < 8 ∧ 8 ≤ 8) ∧ (withDin 5 5).sampleValid 7 4 = false := by decide

theorem witness_SetClockPatternWrites : (7 < 8 ∧ 8 ≤ 8) ∧ (255 : Nat) ≤ 255 := by decide

theorem witness_IntToBitsEmits : (32 ≤ 32 ∧ 32 < 33) ∧ (63 : Nat) ≤ 63 := by decide

/-- Offsets 22–53 are the last 32; a start of 23, a length of 33 and a start of 54 with a length of 1 are out of range. -/
theorem witness_FieldGetReads :
    (32 ≤ 32 ∧ 22 + 32 ≤ 54) ∧ (32 < 33 ∨ 54 < 0 + 33) ∧ (32 < 1 ∨ 54 < 54 + 1) ∧ (0 ≤ 32 ∧ 54 + 0 ≤ 54) := by decide

theorem witness_FieldSetWrites : (32 ≤ 32 ∧ 22 + 32 ≤ 54) ∧ (32 < 32 ∨ 54 < 23 + 32) := by decide

theorem witness_FromBytesOfToBytes :
    ∃ t bytes, exec .toBytes (st 2 0) = .next t ∧ t.responses = (st 2 0).responses ++ [.dout bytes] :=
  ⟨_, _, exec_toBytes _, rfl⟩

theorem witness_ConversionsInverse :
    (0xFFFFFFFF < 2 ^ 32 ∧ 32 ≤ 32) ∧ [true, false].length = 2 := by decide

theorem witness_BitsToIntValue :
    32 ≤ (withDin 0 32).din.length ∧ 33 ≤ (withDin 0 33).din.length ∧ (withDin 0 32).din.length < 33 := by decide

theorem witness_AccessorsAreFieldCommands : ⟨.getTimestamp, .setTimestamp, 17, 24, 0x58000000, 0x5C000000⟩ ∈ namedFields := by
  decide

theorem witness_NamedGettersRead : ⟨.getParity, .forceSetParity, 53, 1, 0x90000000, 0x94000000⟩ ∈ namedFields := by decide

theorem witness_NamedSettersWrite : ⟨.getFifoFull, .setFifoFull, 52, 1, 0x70000000, 0x74000000⟩ ∈ namedFields := by decide

theorem witness_SetThenGet : ⟨.getRegister, .setRegister, 10, 8, 0x78000000, 0x7C000000⟩ ∈ namedFields := by decide

/-- Two disjoint fields that meet at offset 10, and one field clear of the test counter. -/
theorem witness_DisjointSettersCommute :
    ⟨.getChipid, .setChipid, 2, 8, 0x48000000, 0x4C000000⟩ ∈ namedFields ∧
    ⟨.getChannelid, .setChannelid, 10, 7, 0x50000000, 0x54000000⟩ ∈ namedFields ∧ 2 + 8 ≤ 10 ∧
    ⟨.getRegisterData, .setRegisterData, 18, 8, 0x80000000, 0x84000000⟩ ∈ namedFields ∧ 14 ≤ 18 ∧ 18 + 8 ≤ 41 := by decide

theorem witness_UnnamedOffsetsKept :
    (∃ t, exec .setRegisterData (st 0xFF 0) = .next t) ∧ (∃ t, exec .setTestCounter (st 0xFFFF 0) = .next t) :=
  ⟨⟨_, exec_setRegisterData _⟩, ⟨_, exec_setTestCounter _⟩⟩

theorem witness_PacketTypeNames :
    (st 2 0).build.legal = true ∧ (st 2 0).arg = ((st 2 0).build.packetTypeCode.code .configWrite).setWidth 32 := by decide

/-- After SET_PARITY at reset, with offset 52 flipped. -/
theorem witness_ParityLaws : ∃ t, exec .setParity State.reset = .next t ∧
    ∀ k < 54, (t.packet ^^^ 0x10000000000000).getLsbD k = if k = 52 then !t.packet.getLsbD k else t.packet.getLsbD k :=
  ⟨_, exec_setParity _, by decide +kernel⟩

/-- The last offset that fits and the first that does not, at both values of `BPB`. -/
theorem witness_FootprintCheck :
    (st 800 0).arg.toNat + 56 * (st 800 0).build.bitsPerBaud.samples ≤ 1024 ∧
    1024 < (st 801 0).arg.toNat + 56 * (st 801 0).build.bitsPerBaud.samples ∧
    (st 968 0).arg.toNat + 56 * BitsPerBaud.one.samples ≤ 1024 ∧
    1024 < (st 969 0).arg.toNat + 56 * BitsPerBaud.one.samples := by decide

theorem witness_EmbedWritesFrame :
    (7 < 8 ∧ (st 800 0).arg.toNat + 56 * (st 800 0).build.bitsPerBaud.samples ≤ 1024) ∧
    1024 < (st 801 0).arg.toNat + 56 * (st 801 0).build.bitsPerBaud.samples ∧ 8 ≤ 8 := by decide

theorem witness_ExtractReadsFrame :
    (0 < 8 ∧ (st 0 0).arg.toNat + 56 * (st 0 0).build.bitsPerBaud.samples ≤ 1024) ∧
    1024 < (st 0xFFFFFFFF 0).arg.toNat + 56 * (st 0xFFFFFFFF 0).build.bitsPerBaud.samples := by decide

theorem witness_EmbedExtractRoundTrip :
    (st 800 7).build.legal = true ∧ (st 800 7).arg.toNat + 56 * (st 800 7).build.bitsPerBaud.samples ≤ 1024 ∧
    ∃ t u : State, exec (.embed 7) (st 800 7) = .next t ∧
      (∀ j < 1024, Memory.read u.samples (sampleAddress 7 j) = Memory.read t.samples (sampleAddress 7 j)) ∧
      u.build = (st 800 7).build ∧ u.arg = (st 800 7).arg :=
  ⟨by decide, by decide, _, _, exec_embed _ (by decide) (by decide), fun _ _ => rfl, rfl, rfl⟩

theorem witness_FrameInByteStream :
    (st 800 7).arg.toNat + 56 * (st 800 7).build.bitsPerBaud.samples ≤ 1024 ∧
    (∃ t, exec (.embed 7) (st 800 7) = .next t) ∧
    (st 800 7).arg.toNat + 56 * (st 800 7).build.bitsPerBaud.samples ≤ (1024 : Word).toNat :=
  ⟨by decide, ⟨_, exec_embed _ (by decide) (by decide)⟩, by decide⟩

theorem witness_PseudoExpansions :
    readsArg (.embed 1) = true ∧ WellFormed (.embed 1) = true ∧ WellFormed (.embed 256) = false := by decide

end Sys2Proof.Tests
end

-- The family of spec/10_state.md: what a step and a command do to the block's state.
section
/-! PROOFS. What a step answers for each interaction, and what a command that answers a next state has done. -/

namespace Sys2Proof.Machine

open Sys2Proof.Claims

/-! ## One equation of `step` per interaction (spec/60_exceptions.md R290) -/

section StepEquations

variable {s : State} {rest : List Interaction}

theorem step_idle (h : s.pending = []) : step s = .next s := by
  simp only [step, h]

theorem step_writeArg {v : Word} (h : s.pending = .writeArg v :: rest) :
    step s = .next (s.popInteraction.hostWriteArg v) := by
  simp only [step, h]

theorem step_readResult (h : s.pending = .readResult :: rest) : step s = .next s.popInteraction.hostReadResult := by
  simp only [step, h]

theorem step_readStatus (h : s.pending = .readStatus :: rest) : step s = .next s.popInteraction.hostReadStatus := by
  simp only [step, h]

theorem step_reset (h : s.pending = .reset :: rest) : step s = .next s.popInteraction.hostReset := by
  simp only [step, h]

theorem step_command {w : Word} {din : List Byte} {i : Instr} (h : s.pending = .command w din :: rest)
    (hw : decode w = .ok i) : step s = exec i (s.beginCommand din) := by
  simp only [step, h, hw]

theorem step_illegal {w : Word} {din : List Byte} {e : IllegalWord} (h : s.pending = .command w din :: rest)
    (hw : decode w = .error e) : step s = .next (s.beginCommand din).illegalCommand := by
  simp only [step, h, hw]

/-- A step on a command word that answers a next state ran the decoded command or raised `IllegalCommand`. -/
theorem step_command_next_cases {t : State} {w : Word} {din : List Byte} (h : s.pending = .command w din :: rest)
    (ht : step s = .next t) :
    (∃ i, exec i (s.beginCommand din) = .next t) ∨ t = (s.beginCommand din).illegalCommand := by
  cases hw : decode w with
  | ok i => exact .inl ⟨i, step_command h hw ▸ ht⟩
  | error e => exact .inr (Host.Outcome.next.inj (ht.symm.trans (step_illegal h hw)))

end StepEquations

/-! ## What every command that answers a next state has in common -/

section ExecNext

variable {i : Instr} {s t : State}

theorem exec_next_arg (h : exec i s = .next t) : t.arg = s.arg := by
  obtain rfl | ⟨u, dout, hk, rfl⟩ := exec_next_cases h
  · rfl
  · exact hk.arg

theorem exec_next_build (h : exec i s = .next t) : t.build = s.build := by
  obtain rfl | ⟨u, dout, hk, rfl⟩ := exec_next_cases h
  · rfl
  · exact hk.build

theorem exec_next_din (h : exec i s = .next t) : t.din = [] := by
  obtain rfl | ⟨u, dout, -, rfl⟩ := exec_next_cases h <;> rfl

theorem exec_next_status (h : exec i s = .next t) : t.status = 0 ∨ t.status = 1 := by
  obtain rfl | ⟨u, dout, -, rfl⟩ := exec_next_cases h
  · exact .inr rfl
  · exact .inl rfl

/-- A command that reports an error code did nothing but raise it. -/
theorem exec_next_eq_raise (h : exec i s = .next t) (hst : t.status ≠ 0) : t = s.raise .rangeError := by
  obtain rfl | ⟨u, dout, -, rfl⟩ := exec_next_cases h
  · rfl
  · exact absurd rfl hst

end ExecNext

/-! ## The codes and field values a command leaves -/

/-- After a command transaction `STATUS` holds one of the three codes. -/
theorem step_command_status {s t : State} {w : Word} {din : List Byte} {rest : List Interaction}
    (h : s.pending = .command w din :: rest) (ht : step s = .next t) :
    t.status = 0 ∨ t.status = 1 ∨ t.status = 2 := by
  obtain ⟨i, hx⟩ | rfl := step_command_next_cases h ht
  · exact (exec_next_status hx).imp_right .inl
  · exact .inr (.inr rfl)

/-- The getter of a named field reads the field's range, which no operand can put out of range. -/
theorem exec_namedField_getter {f : NamedField} (hf : f ∈ namedFields) (s : State) :
    exec f.getter s = .next (s.getField f.lo f.width) := by
  simp only [namedFields, List.mem_cons, List.not_mem_nil, or_false] at hf
  rcases hf with rfl | rfl | rfl | rfl | rfl | rfl | rfl | rfl | rfl | rfl <;> rfl

/-- `RESULT` is never wider than the field it was read from. -/
theorem result_getField_lt (s : State) (lo len : Nat) : (s.getField lo len).result.toNat < 2 ^ len := by
  rw [State.getField_result, BitVec.toNat_ofNat]
  exact (Nat.mod_le _ _).trans_lt (fieldValue_lt _ _ _)

/-! ## The effects a command can have before it completes -/

/-- The effects a command `i` at `s` can have before it completes, with the bounds its checks established; only a getter
sets `RESULT`. `exec_next_ends` ties it to `exec`. -/
inductive Effect (i : Instr) (s : State) : State → Prop where
  | none : Effect i s s
  | read (cells : List (Nat × Nat)) : Effect i s (s.recordReads cells)
  | fill (b : Bool) : Effect i s (s.fillSamples b)
  | write (c j : Nat) (bits : List Bool) (hc : c < 8) (hn : j + bits.length ≤ 1024) : Effect i s (s.writeSamples c j bits)
  | unpack (bytes : List Byte) (hn : bytes.length ≤ 1024) : Effect i s (s.unpackBytes bytes)
  | packet (p : Packet) : Effect i s (s.setPacket p)
  | readPacket (cells : List (Nat × Nat)) (p : Packet) : Effect i s ((s.recordReads cells).setPacket p)
  | result (v : Nat) (hi : isGetter i = true) : Effect i s (s.setResult v)

/-- The two ends of a command at `s` that answers a next state: `RangeError`, or one of its effects and completion. -/
inductive Ends (i : Instr) (s : State) : State → Prop where
  | range : Ends i s (s.raise .rangeError)
  | complete {u : State} (dout : List Byte) (he : Effect i s u) : Ends i s (u.complete dout)

section ExecEnds

variable {i : Instr} {s t u : State}

theorem Effect.ends {dout : List Byte} (he : Effect i s u)
    (h : (.next (u.complete dout) : Host.Outcome State Fault Refusal) = .next t) : Ends i s t :=
  Host.Outcome.next.inj h ▸ .complete dout he

theorem Ends.of_requireRange {ok : Bool} {k : Host.Outcome State Fault Refusal} (h : requireRange ok s k = .next t)
    (hk : ok = true → k = .next t → Ends i s t) : Ends i s t := by
  obtain ⟨hok, hn⟩ | ⟨-, rfl⟩ := requireRange_eq_next h
  · exact hk hok hn
  · exact .range

theorem State.count_le (s : State) : s.count ≤ 1024 := Nat.min_le_right _ _

theorem length_take_count_le (s : State) : (s.din.take s.count).length ≤ 1024 :=
  (List.length_take_le _ _).trans s.count_le

/-- Everything a command can do when it answers a next state, with the bounds of what it writes. -/
theorem exec_next_ends (h : exec i s = .next t) : Ends i s t := by
  cases i with
  | initHigh | initLow => exact (Effect.fill _).ends h
  | toBytes => exact (Effect.read _).ends h
  | fromBytes => exact (Effect.unpack _ (length_take_count_le s)).ends (requireInput_eq_next h).2
  | setChannelBitstream c =>
    refine .of_requireRange (requireInput_eq_next h).2 fun hc => (Effect.write c 0 _ (of_decide_eq_true hc) ?_).ends
    simpa using .inl s.count_le
  | getChannelBitstream c => exact .of_requireRange h fun _ => (Effect.read _).ends
  | setClockPattern c =>
    exact .of_requireRange h fun hc => (Effect.write c 0 _ (of_decide_eq_true hc) (by simp)).ends
  | intToBits len => exact .of_requireRange h fun _ => Effect.none.ends
  | bitsToInt len => exact .of_requireRange (requireInput_eq_next h).2 fun _ => (Effect.result _ rfl).ends
  | fieldGet lo len => exact .of_requireRange h fun _ h => .of_requireRange h fun _ => (Effect.result _ rfl).ends
  | fieldSet lo len => exact .of_requireRange h fun _ h => .of_requireRange h fun _ => (Effect.packet _).ends
  | embed c =>
    refine .of_requireRange h fun hc h => .of_requireRange h fun hf =>
      (Effect.write c _ _ (of_decide_eq_true hc) ?_).ends
    rw [length_frameSamples]
    exact s.footprintOk_iff.1 hf
  | extract c => exact .of_requireRange h fun _ h => .of_requireRange h fun _ => (Effect.readPacket _ _).ends
  | getPacketType | getChipid | getChannelid | getTimestamp | getDataword | getFifoHalf | getFifoFull | getRegister
  | getRegisterData | getTestCounter | getParity | computeParity | checkParity => exact (Effect.result _ rfl).ends h
  | pktClear | setPacketType | setChipid | setChannelid | setTimestamp | setDataword | setFifoHalf | setFifoFull
  | setRegister | setRegisterData | setTestCounter | forceSetParity | setParity => exact (Effect.packet _).ends h

theorem Effect.wf_samples (he : Effect i s u) (hwf : Memory.wf s.samples = true) : Memory.wf u.samples = true := by
  cases he with
  | fill b => exact s.wf_fillSamples b hwf
  | write c j bits hc hn => exact s.wf_writeSamples c j bits hwf hc hn
  | unpack bytes hn => exact wf_unpackInto _ bytes hn hwf
  | none | read | packet | readPacket | result => exact hwf

theorem Effect.result_eq (he : Effect i s u) (hi : isGetter i = false) : u.result = s.result := by
  cases he with
  | result v hg => rw [hi] at hg; cases hg
  | none | read | fill | write | unpack | packet | readPacket => rfl

theorem exec_next_wf_samples (h : exec i s = .next t) (hwf : Memory.wf s.samples = true) :
    Memory.wf t.samples = true := by
  cases exec_next_ends h with
  | range => exact hwf
  | complete dout he => exact he.wf_samples hwf

theorem exec_next_result (h : exec i s = .next t) (hi : isGetter i = false) : t.result = s.result := by
  cases exec_next_ends h with
  | range => rfl
  | complete dout he => exact he.result_eq hi

/-- A command keeps no input stream, so it needs no empty one to end in the invariant. -/
theorem exec_next_inv (h : exec i s = .next t) (hwf : Memory.wf s.samples = true) (hb : s.build.legal = true) :
    t.Inv := by
  refine ⟨exec_next_wf_samples h hwf, ?_, exec_next_build h ▸ hb, exec_next_din h⟩
  obtain hst | hst := exec_next_status h <;> rw [hst] <;> decide

end ExecEnds

/-! ## Changing the parameters

The getters and setters go through `getField_mapBuild` and `setField_mapBuild`: one `rfl` on the two outcomes would
unfold the field's value. -/

/-- `s` with its parameters changed by `g`. -/
def State.mapBuild (g : Params → Params) (s : State) : State := { s with build := g s.build }

section MapBuild

variable {g : Params → Params} {s : State} {k k' : Host.Outcome State Fault Refusal}

theorem requireInput_mapBuild (need : Nat) (hk : k' = mapNext (State.mapBuild g) k) :
    requireInput need (s.mapBuild g) k' = mapNext (State.mapBuild g) (requireInput need s k) := by
  by_cases hn : s.din.length < need
  · rw [requireInput_of_lt hn, requireInput_of_lt (s := s.mapBuild g) hn]; rfl
  · have hle := Nat.not_lt.1 hn
    rw [requireInput_of_le hle, requireInput_of_le (s := s.mapBuild g) hle, hk]

theorem requireRange_mapBuild (ok : Bool) (hk : k' = mapNext (State.mapBuild g) k) :
    requireRange ok (s.mapBuild g) k' = mapNext (State.mapBuild g) (requireRange ok s k) := by
  cases ok
  · rfl
  · exact hk

theorem State.getField_mapBuild (lo len : Nat) :
    (s.mapBuild g).getField lo len = (s.getField lo len).mapBuild g := rfl

theorem State.setField_mapBuild (lo len : Nat) :
    (s.mapBuild g).setField lo len = (s.setField lo len).mapBuild g := rfl

theorem State.bpb_mapBuild (hb : (g s.build).bitsPerBaud = s.build.bitsPerBaud) : (s.mapBuild g).bpb = s.bpb :=
  congrArg BitsPerBaud.samples hb

theorem State.footprintOk_mapBuild (hb : (g s.build).bitsPerBaud = s.build.bitsPerBaud) :
    (s.mapBuild g).footprintOk = s.footprintOk := by
  simp only [State.footprintOk, State.footprint, State.bpb_mapBuild hb]
  rfl

theorem State.extractIndex_mapBuild (hb : (g s.build).bitsPerBaud = s.build.bitsPerBaud)
    (he : (g s.build).extractPhase = s.build.extractPhase) (j : Nat) :
    (s.mapBuild g).extractIndex j = s.extractIndex j := by
  simp only [State.extractIndex, State.bpb_mapBuild hb]
  exact congrArg (s.frameOffset + (j + 1) * s.bpb + ·) he

/-- A change of the parameters that leaves `BPB` and `EXTRACT_PHASE` as they are shows in no command's outcome; for a
command other than EMBED and EXTRACT any change does. -/
theorem exec_mapBuild (i : Instr)
    (hg : (∃ c, i = .embed c ∨ i = .extract c) →
      (g s.build).bitsPerBaud = s.build.bitsPerBaud ∧ (g s.build).extractPhase = s.build.extractPhase) :
    exec i (s.mapBuild g) = mapNext (State.mapBuild g) (exec i s) := by
  cases i with
  | fromBytes => exact requireInput_mapBuild _ rfl
  | setChannelBitstream c => exact requireInput_mapBuild _ (requireRange_mapBuild _ rfl)
  | bitsToInt len => exact requireInput_mapBuild _ (requireRange_mapBuild _ rfl)
  | getChannelBitstream c => exact requireRange_mapBuild _ rfl
  | setClockPattern c => exact requireRange_mapBuild _ rfl
  | intToBits len => exact requireRange_mapBuild _ rfl
  | fieldGet lo len => exact requireRange_mapBuild _ (requireRange_mapBuild _ rfl)
  | fieldSet lo len => exact requireRange_mapBuild _ (requireRange_mapBuild _ rfl)
  | embed c =>
    obtain ⟨hb, -⟩ := hg ⟨c, .inl rfl⟩
    refine requireRange_mapBuild _ ?_
    rw [State.footprintOk_mapBuild hb]
    refine requireRange_mapBuild _ ?_
    rw [State.bpb_mapBuild hb]
    rfl
  | extract c =>
    obtain ⟨hb, he⟩ := hg ⟨c, .inr rfl⟩
    refine requireRange_mapBuild _ ?_
    rw [State.footprintOk_mapBuild hb]
    refine requireRange_mapBuild _ ?_
    simp only [State.extractCells, State.extractIndex_mapBuild hb he]
    rfl
  | getPacketType | getChipid | getChannelid | getTimestamp | getDataword | getFifoHalf | getFifoFull | getRegister
  | getRegisterData | getParity => exact congrArg Host.Outcome.next (State.getField_mapBuild _ _)
  | setPacketType | setChipid | setChannelid | setTimestamp | setDataword | setFifoHalf | setFifoFull | setRegister
  | setRegisterData | forceSetParity => exact congrArg Host.Outcome.next (State.setField_mapBuild _ _)
  | initHigh | initLow | toBytes | pktClear | getTestCounter | setTestCounter | computeParity | setParity
  | checkParity => rfl

end MapBuild

end Sys2Proof.Machine
end

section
/-! PROOFS. The statements of the family of spec/10_state.md. -/

namespace Sys2Proof.Proofs

open Sys2Proof.Machine Sys2Proof.Claims

/-- Settles O12: a command writes only samples inside the store and ends with a code and no input stream; a reset
empties the store; the host's reads and writes touch none of the four fields. -/
theorem stepKeepsInv : Obligations.StepKeepsInv := by
  intro s t hs h
  have ⟨hwf, _, hb, _⟩ := hs
  rcases step_next_cases h with ⟨-, rfl⟩ | ⟨v, -, -, rfl⟩ | ⟨-, -, rfl⟩ | ⟨-, -, rfl⟩ | ⟨-, -, rfl⟩ |
    ⟨w, din, -, -, ⟨i, -, hx⟩ | ⟨e, -, rfl⟩⟩
  · exact hs
  · exact hs
  · exact hs
  · exact hs
  · exact ⟨Memory.wf_nil, Nat.zero_le _, hb, rfl⟩
  · exact exec_next_inv hx hwf hb
  · exact ⟨hwf, le_refl 2, hb, rfl⟩

/-- Settles O14: `exec_next_arg` for the commands, and the equations of `step` for the host's interactions. -/
theorem argIsTheHosts : Obligations.ArgIsTheHosts := by
  refine ⟨fun i s t => exec_next_arg, ?_, fun s v rest h => ⟨_, step_writeArg h, rfl⟩⟩
  rintro s rest (h | h)
  · exact ⟨_, step_readResult h, rfl⟩
  · exact ⟨_, step_readStatus h, rfl⟩

/-- Settles O16: only the effect of a getter sets `RESULT`, an error has no effect, and a named field's value fits its
width. -/
theorem resultOnlyByGetters : Obligations.ResultOnlyByGetters := by
  refine ⟨fun i s t => exec_next_result, fun i s t h hst => ?_, fun f hf s t h => ?_⟩
  · rw [exec_next_eq_raise h hst, State.raise_result]
  · rw [← Host.Outcome.next.inj ((exec_namedField_getter hf s).symm.trans h)]
    exact result_getField_lt s f.lo f.width

/-- Settles O17: a command ends with code 0 or 1, an illegal word with 2, and no other interaction but a reset writes
`STATUS`. -/
theorem statusAfterInteraction : Obligations.StatusAfterInteraction := by
  refine ⟨fun i s t => exec_next_status, fun s t w din rest e h hw ht => ?_, fun s t w din rest h ht => ?_,
    fun s t rest h ht => ?_⟩
  · rw [Host.Outcome.next.inj (ht.symm.trans (step_illegal h hw)), State.illegalCommand_status]
  · obtain hst | hst | hst := step_command_status h ht <;> rw [State.statusCode, hst] <;> decide
  · obtain h | h | ⟨v, h⟩ := h
    · rw [step_readResult h] at ht; cases ht; rfl
    · rw [step_readStatus h] at ht; cases ht; rfl
    · rw [step_writeArg h] at ht; cases ht; rfl

/-- Settles O18: both halves are instances of `exec_mapBuild`. -/
theorem buildMattersOnlyToFraming : Obligations.BuildMattersOnlyToFraming := by
  refine ⟨fun i s b he hx => exec_mapBuild (g := fun _ => b) i ?_,
    fun i s k => exec_mapBuild (g := fun p => { p with packetTypeCode := k }) i fun _ => ⟨rfl, rfl⟩⟩
  rintro ⟨c, h | h⟩
  · exact absurd h (he c)
  · exact absurd h (hx c)

/-- Settles O25: a command does to the sample memory only what makes no listed address unlisted. -/
theorem commandsKeepSamplesValid : Obligations.CommandsKeepSamplesValid := by
  intro i s t c j h hv
  unfold State.sampleValid at *
  obtain hm | ⟨base, bs, hm⟩ | ⟨bytes, hm⟩ := exec_samples_cases h <;> rw [hm]
  · exact hv
  · exact Memory.isSome_read_writeRun base bs hv
  · exact isSome_read_unpackInto _ bytes _ hv

/-- Settles O9: the equation of `step` where nothing is pending. -/
theorem idleWithoutInteraction : Obligations.IdleWithoutInteraction := fun _ => step_idle

/-- Settles O10: an empty sample list has no valid cell, at the first state as after a reset interaction. -/
theorem resetValues : Obligations.ResetValues :=
  ⟨⟨rfl, rfl, rfl, rfl, fun _ _ => rfl⟩,
    fun _ _ h => ⟨_, step_reset h, rfl, rfl, rfl, rfl, fun _ _ => rfl⟩⟩

/-- Settles O11: the store is empty, `STATUS` is 0, the canonical parameters are legal, no stream is kept. -/
theorem resetMeetsInv : Obligations.ResetMeetsInv := ⟨Memory.wf_nil, Nat.zero_le _, by decide, rfl⟩

end Sys2Proof.Proofs
end

-- The family of spec/20_memory.md: one interaction a step, and a command issued again.
section
/-! PROOFS. The normal form of a command: its two checks, its effect, its output stream; and what a command issued again
with the same input does. -/

namespace Sys2Proof.Machine

open Sys2Proof.Claims

/-! ## The normal form of a command -/

/-- The range checks of a command, all together. -/
def rangeOk (s : State) : Instr → Bool
  | .setChannelBitstream c | .getChannelBitstream c | .setClockPattern c => channelOk c
  | .intToBits len | .bitsToInt len => lengthOk len
  | .fieldGet lo len | .fieldSet lo len => lengthOk len && fieldOk lo len
  | .embed c | .extract c => channelOk c && s.footprintOk
  | _ => true

/-- What a command whose checks pass does before it completes. -/
def commandEffect (s : State) : Instr → State
  | .initHigh => s.fillSamples true
  | .initLow => s.fillSamples false
  | .toBytes => s.recordReads (allChannelCells s.count)
  | .fromBytes => s.unpackBytes (s.din.take s.count)
  | .setChannelBitstream c => s.writeSamples c 0 ((s.din.take s.count).map byteSample)
  | .getChannelBitstream c => s.recordReads (channelCells c s.count)
  | .setClockPattern c => s.writeSamples c 0 (clockBits 1024)
  | .intToBits _ => s
  | .bitsToInt len => s.setResult (bitsToInt ((s.din.take len).map byteSample))
  | .fieldGet lo len => s.setResult (fieldValue s.packet lo len)
  | .fieldSet lo len => s.setPacket (withField s.packet lo len s.arg.toNat)
  | .pktClear => s.setPacket 0
  | .getPacketType => s.setResult (fieldValue s.packet 0 2)
  | .setPacketType => s.setPacket (withField s.packet 0 2 s.arg.toNat)
  | .getChipid => s.setResult (fieldValue s.packet 2 8)
  | .setChipid => s.setPacket (withField s.packet 2 8 s.arg.toNat)
  | .getChannelid => s.setResult (fieldValue s.packet 10 7)
  | .setChannelid => s.setPacket (withField s.packet 10 7 s.arg.toNat)
  | .getTimestamp => s.setResult (fieldValue s.packet 17 24)
  | .setTimestamp => s.setPacket (withField s.packet 17 24 s.arg.toNat)
  | .getDataword => s.setResult (fieldValue s.packet 41 10)
  | .setDataword => s.setPacket (withField s.packet 41 10 s.arg.toNat)
  | .getFifoHalf => s.setResult (fieldValue s.packet 51 1)
  | .setFifoHalf => s.setPacket (withField s.packet 51 1 s.arg.toNat)
  | .getFifoFull => s.setResult (fieldValue s.packet 52 1)
  | .setFifoFull => s.setPacket (withField s.packet 52 1 s.arg.toNat)
  | .getRegister => s.setResult (fieldValue s.packet 10 8)
  | .setRegister => s.setPacket (withField s.packet 10 8 s.arg.toNat)
  | .getRegisterData => s.setResult (fieldValue s.packet 18 8)
  | .setRegisterData => s.setPacket (withField s.packet 18 8 s.arg.toNat)
  | .getTestCounter => s.setResult (testCounter s.packet)
  | .setTestCounter => s.setPacket (withTestCounter s.packet s.arg.toNat)
  | .getParity => s.setResult (fieldValue s.packet 53 1)
  | .forceSetParity => s.setPacket (withField s.packet 53 1 s.arg.toNat)
  | .computeParity => s.setResult (computeParity s.packet).toNat
  | .setParity => s.setPacket (setPacketBit s.packet 53 (computeParity s.packet))
  | .checkParity => s.setResult (parityMismatch s.packet)
  | .embed c => s.writeSamples c s.frameOffset (frameSamples s.packet s.bpb)
  | .extract c => (s.recordReads (s.extractCells c)).setPacket
      (writePacketBits s.packet 0 ((List.range 54).map (fun i => s.sample c (s.extractIndex i))))

/-- `DOUT` of a command whose checks pass. -/
def commandOutput (s : State) : Instr → List Byte
  | .toBytes => (List.range s.count).map (fun j => s.packedByte j)
  | .getChannelBitstream c => (s.channelSamples c s.count).map sampleByte
  | .intToBits len => (intToBits s.arg.toNat len).map sampleByte
  | _ => []

theorem requireRange_and (a b : Bool) (s : State) (k : Host.Outcome State Fault Refusal) :
    requireRange a s (requireRange b s k) = requireRange (a && b) s k := by cases a <;> rfl

/-- Say once how a command runs: input admission, then the range checks, then its effect, and it completes with its
output (spec/60_exceptions.md R275). -/
theorem exec_eq (i : Instr) (s : State) :
    exec i s = requireInput (need s i) s (requireRange (rangeOk s i) s
      (.next ((commandEffect s i).complete (commandOutput s i)))) := by
  cases i with
  | fromBytes | setChannelBitstream | bitsToInt => rfl
  | fieldGet | fieldSet | embed | extract =>
    exact (requireRange_and _ _ _ _).trans (requireInput_of_le (Nat.zero_le _) _).symm
  | _ => exact (requireInput_of_le (Nat.zero_le _) _).symm

/-- A command whose checks pass does its effect and completes. -/
theorem exec_of_rangeOk {i : Instr} {s : State} (hin : need s i ≤ s.din.length) (hr : rangeOk s i = true) :
    exec i s = .next ((commandEffect s i).complete (commandOutput s i)) := by
  rw [exec_eq, requireInput_of_le hin, hr, requireRange_true]

/-- An admitted command whose range checks fail raises `RangeError`. -/
theorem exec_of_not_rangeOk {i : Instr} {s : State} (hin : need s i ≤ s.din.length) (hr : rangeOk s i = false) :
    exec i s = .next (s.raise .rangeError) := by
  rw [exec_eq, requireInput_of_le hin, hr, requireRange_false]

theorem Keeps.commandEffect (s : State) (i : Instr) : Keeps s (commandEffect s i) := by
  have k := Keeps.refl s
  cases i with
  | initHigh | initLow => exact .fillSamples s _
  | toBytes | getChannelBitstream => exact k.recordReads _
  | fromBytes => exact .unpackBytes s _
  | setChannelBitstream | setClockPattern | embed => exact k.writeSamples _ _ _
  | intToBits => exact k
  | extract => exact (k.recordReads _).setPacket _
  | bitsToInt | fieldGet | getPacketType | getChipid | getChannelid | getTimestamp | getDataword | getFifoHalf
  | getFifoFull | getRegister | getRegisterData | getTestCounter | getParity | computeParity | checkParity =>
    exact k.setResult _
  | fieldSet | pktClear | setPacketType | setChipid | setChannelid | setTimestamp | setDataword | setFifoHalf
  | setFifoFull | setRegister | setRegisterData | setTestCounter | forceSetParity | setParity =>
    exact k.setPacket _

/-! What a command needs depends on `ARG` only, and its range checks on `ARG` and the parameters only. -/

theorem need_congr {s u : State} (ha : u.arg = s.arg) (i : Instr) : need u i = need s i := by
  have hc : clamped u = clamped s := by rw [clamped, ha, clamped]
  cases i with
  | fromBytes | setChannelBitstream => exact hc
  | _ => rfl

theorem rangeOk_congr {s u : State} (ha : u.arg = s.arg) (hb : u.build = s.build) (i : Instr) :
    rangeOk u i = rangeOk s i := by
  have hf : u.footprintOk = s.footprintOk := by
    rw [Bool.eq_iff_iff, u.footprintOk_iff, s.footprintOk_iff, ha, hb]
  cases i with
  | embed c | extract c => exact congrArg (channelOk c && ·) hf
  | _ => rfl

/-! ## Packet writes done a second time -/

theorem writePacketBits_writePacketBits (p : Packet) (lo : Nat) (bs : List Bool) :
    writePacketBits (writePacketBits p lo bs) lo bs = writePacketBits p lo bs := by
  refine BitVec.eq_of_getLsbD_eq fun k hk => ?_
  rw [getLsbD_writePacketBits _ _ _ _ hk, getLsbD_writePacketBits _ _ _ _ hk]
  split <;> rfl

@[simp] theorem withField_withField (p : Packet) (lo len v : Nat) :
    withField (withField p lo len v) lo len v = withField p lo len v := writePacketBits_writePacketBits p lo _

@[simp] theorem withTestCounter_withTestCounter (p : Packet) (v : Nat) :
    withTestCounter (withTestCounter p v) v = withTestCounter p v := by
  refine BitVec.eq_of_getLsbD_eq fun k hk => ?_
  simp only [getLsbD_withTestCounter _ _ _ hk]
  split
  · rfl
  · split <;> rfl

/-- Setting the parity bit does not change the parity of the bits before it, so a second SET_PARITY writes the same. -/
@[simp] theorem setParityBit_setParityBit (p : Packet) :
    setPacketBit (setPacketBit p 53 (computeParity p)) 53 (computeParity (setPacketBit p 53 (computeParity p))) =
      setPacketBit p 53 (computeParity p) := by
  have h : computeParity (setPacketBit p 53 (computeParity p)) = computeParity p :=
    computeParity_congr _ _ fun i hi => by rw [getLsbD_setPacketBit _ _ _ _ (by omega), if_neg (by omega)]
  rw [h]
  exact writePacketBits_writePacketBits p 53 [computeParity p]

/-! ## A command issued again

A write of the same run, packet or result changes nothing the second time. -/

/-- `u`, completed with the output `dout`, with the input `din` for the next command. -/
def State.reissue (u : State) (dout din : List Byte) : State := { u.complete dout with din := din }

section Reissue

variable (s : State) (dout din : List Byte)

@[simp] theorem State.reissue_packet : (s.reissue dout din).packet = s.packet := rfl
@[simp] theorem State.reissue_arg : (s.reissue dout din).arg = s.arg := rfl
@[simp] theorem State.reissue_din : (s.reissue dout din).din = din := rfl

theorem State.writeSamples_reissue (c j : Nat) (bits : List Bool) :
    ((s.writeSamples c j bits).reissue dout din).writeSamples c j bits = (s.writeSamples c j bits).reissue dout din :=
  congrArg (fun m => { s.reissue dout din with samples := m }) (Memory.writeRun_writeRun _ _ _)

theorem State.unpackBytes_reissue {bytes : List Byte} (hn : bytes.length ≤ 1024) (hwf : Memory.wf s.samples = true) :
    ((s.unpackBytes bytes).reissue dout din).unpackBytes bytes = (s.unpackBytes bytes).reissue dout din :=
  congrArg (fun m => { s.reissue dout din with samples := m }) (unpackInto_unpackInto _ _ hn hwf)

theorem State.recordReads_reissue (cells : List (Nat × Nat)) :
    ((s.recordReads cells).reissue dout din).recordReads cells = (s.recordReads cells).reissue dout din :=
  congrArg (fun b => { s.reissue dout din with uninitSampleRead := b })
    ((Bool.or_assoc _ _ _).trans (congrArg (s.uninitSampleRead || ·) (Bool.or_self _)))

theorem State.setPacket_reissue (p : Packet) :
    ((s.setPacket p).reissue dout din).setPacket p = (s.setPacket p).reissue dout din := rfl

theorem State.setResult_reissue (v : Nat) :
    ((s.setResult v).reissue dout din).setResult v = (s.setResult v).reissue dout din := rfl

theorem State.recordReads_setPacket_reissue (cells : List (Nat × Nat)) {p q : Packet} (h : q = p) :
    ((((s.recordReads cells).setPacket p).reissue dout din).recordReads cells).setPacket q =
      ((s.recordReads cells).setPacket p).reissue dout din :=
  h ▸ congrArg (State.setPacket · p) (s.recordReads_reissue dout din cells)

end Reissue

/-- A command that begins again finds its effect done. -/
theorem commandEffect_reissue {s : State} (hwf : Memory.wf s.samples = true) (i : Instr) (dout : List Byte) :
    commandEffect ((commandEffect s i).reissue dout s.din) i = (commandEffect s i).reissue dout s.din := by
  cases i with
  | initHigh | initLow | setChannelBitstream | setClockPattern | embed => exact s.writeSamples_reissue dout _ _ _ _
  | fromBytes => exact s.unpackBytes_reissue dout _ (length_take_count_le s) hwf
  | toBytes | getChannelBitstream => exact s.recordReads_reissue dout _ _
  | extract c => exact s.recordReads_setPacket_reissue dout _ _ (writePacketBits_writePacketBits _ _ _)
  | bitsToInt | fieldGet | getPacketType | getChipid | getChannelid | getTimestamp | getDataword | getFifoHalf
  | getFifoFull | getRegister | getRegisterData | getTestCounter | getParity | computeParity | checkParity =>
    simp [commandEffect, State.setResult_reissue]
  | fieldSet | pktClear | setPacketType | setChipid | setChannelid | setTimestamp | setDataword | setFifoHalf
  | setFifoFull | setRegister | setRegisterData | setTestCounter | forceSetParity | setParity =>
    simp [commandEffect, State.setPacket_reissue]
  | intToBits => rfl

theorem commandOutput_reissue (s : State) (i : Instr) (dout : List Byte) :
    commandOutput ((commandEffect s i).reissue dout s.din) i = commandOutput s i := by
  cases i with
  | toBytes | getChannelBitstream | intToBits => rfl
  | _ => simp only [commandOutput]

/-! ## What a command does to the host's lists -/

section ExecNext

variable {i : Instr} {s t : State}

theorem exec_next_pending (h : exec i s = .next t) : t.pending = s.pending := by
  obtain rfl | ⟨u, dout, hk, rfl⟩ := exec_next_cases h
  · rfl
  · exact hk.pending

theorem exec_next_responses (h : exec i s = .next t) : ∃ dout, t.responses = s.responses ++ [.dout dout] := by
  obtain rfl | ⟨u, dout, hk, rfl⟩ := exec_next_cases h
  · exact ⟨[], rfl⟩
  · exact ⟨dout, congrArg (· ++ _) hk.responses⟩

end ExecNext

end Sys2Proof.Machine
end

section
/-! PROOFS. The statements of the family of spec/20_memory.md. -/

namespace Sys2Proof.Proofs

open Sys2Proof.Machine Sys2Proof.Claims

/-- Settles O13: a legal command keeps the host's list and the parameters and appends its one `DOUT`, an illegal word
appends an empty one, a host read its value, and the other interactions nothing. -/
theorem stepTakesOneInteraction : Obligations.StepTakesOneInteraction := by
  intro s t h
  rcases step_next_cases h with ⟨hp, rfl⟩ | ⟨v, rest, hp, rfl⟩ | ⟨rest, hp, rfl⟩ | ⟨rest, hp, rfl⟩ | ⟨rest, hp, rfl⟩ |
    ⟨w, din, rest, hp, ⟨i, -, hx⟩ | ⟨e, -, rfl⟩⟩
  · exact ⟨by rw [hp]; rfl, rfl, [], (List.append_nil _).symm, Nat.zero_le _, by simp [hp]⟩
  · exact ⟨rfl, rfl, [], (List.append_nil _).symm, Nat.zero_le _, by simp [hp]⟩
  · exact ⟨rfl, rfl, [_], rfl, le_rfl, by simp [hp]⟩
  · exact ⟨rfl, rfl, [_], rfl, le_rfl, by simp [hp]⟩
  · exact ⟨rfl, rfl, [], (List.append_nil _).symm, Nat.zero_le _, by simp [hp]⟩
  · obtain ⟨dout, hr⟩ := exec_next_responses hx
    have hb := (exec_next_build hx).trans (s.beginCommand_build din)
    exact ⟨exec_next_pending hx, hb, [.dout dout], hr, le_rfl, fun _ _ _ _ => ⟨dout, rfl⟩⟩
  · exact ⟨rfl, rfl, [.dout []], rfl, le_rfl, fun _ _ _ _ => ⟨[], rfl⟩⟩

/-- Settles O24: by the normal form `exec_eq`. The second time the checks answer the same, the effect finds itself done
(`commandEffect_reissue`), and the output reads what the effect left alone (`commandOutput_reissue`). -/
theorem commandsIdempotent : Obligations.CommandsIdempotent := by
  intro i s t hwf h
  rw [exec_eq] at h
  obtain ⟨hin, h⟩ := requireInput_eq_next h
  rcases requireRange_eq_next h with ⟨hr, h⟩ | ⟨hr, rfl⟩
  · obtain rfl := Host.Outcome.next.inj h
    have hk := Keeps.commandEffect s i
    refine ⟨.dout (commandOutput s i), congrArg (· ++ _) hk.responses, ?_⟩
    have again := exec_of_rangeOk (i := i) (s := (commandEffect s i).reissue (commandOutput s i) s.din)
      ((need_congr hk.arg i).trans_le hin) ((rangeOk_congr hk.arg hk.build i).trans hr)
    rwa [commandEffect_reissue hwf, commandOutput_reissue] at again
  · exact ⟨.dout [], rfl, exec_of_not_rangeOk ((need_congr rfl i).trans_le hin) ((rangeOk_congr rfl rfl i).trans hr)⟩

end Sys2Proof.Proofs
end

-- The family of spec/30_encoding.md: command words, the opcode map, the readers of `ARG`, and the assembler.
section
/-! PROOFS. A command word is its command's opcode and operands: decoding, the encoder and the rows of the opcode map, all
by the five fields of the word. -/

namespace Sys2Proof.Laws

open Sys2Proof.Claims

/-! ## The operands of a command -/

/-- The operand in the field `CH`; 0 for a command without one. -/
def operandCh : Instr → Nat
  | .setChannelBitstream c | .getChannelBitstream c | .setClockPattern c | .embed c | .extract c => c
  | _ => 0

/-- The operand in the field `LO`; 0 for a command without one. -/
def operandLo : Instr → Nat
  | .fieldGet lo _ | .fieldSet lo _ => lo
  | _ => 0

/-- The operand in the field `LEN`; 0 for a command without one. -/
def operandLen : Instr → Nat
  | .intToBits len | .bitsToInt len | .fieldGet _ len | .fieldSet _ len => len
  | _ => 0

/-- A command is well formed exactly where its operands fit the three fields. -/
theorem wellFormed_iff (i : Instr) :
    WellFormed i = true ↔ operandCh i ≤ 255 ∧ operandLo i ≤ 63 ∧ operandLen i ≤ 63 := by
  cases i <;> simp [WellFormed, channelFits, startFits, lengthFits, operandCh, operandLo, operandLen]

/-- One formula for the word of every command (spec/30_encoding.md R84). -/
theorem encode_eq (i : Instr) : encode i = assembleWord (opcode i) (operandCh i) (operandLo i) (operandLen i) := by
  cases i <;> rfl

/-- `w` carries the command `i`: its opcode, its operands, and zero in every other bit. -/
structure Carries (w : Word) (i : Instr) : Prop where
  op : fieldOp w = opcode i
  ch : fieldCh w = operandCh i
  lo : fieldLo w = operandLo i
  len : fieldLen w = operandLen i
  rsv : fieldRsv w = 0

theorem carries_encode {i : Instr} (h : WellFormed i = true) : Carries (encode i) i := by
  obtain ⟨hc, hlo, hlen⟩ := (wellFormed_iff i).1 h
  obtain ⟨op, ch, lo, len, rsv⟩ := fields_assembleWord (opcode_lt i) hc hlo hlen
  rw [encode_eq]
  exact ⟨op, ch, lo, len, rsv⟩

theorem Carries.wellFormed {w : Word} {i : Instr} (h : Carries w i) : WellFormed i = true := by
  have hc : fieldCh w < 2 ^ 8 := wordField_lt w 18 8
  have hlo : fieldLo w < 2 ^ 6 := wordField_lt w 12 6
  have hlen : fieldLen w < 2 ^ 6 := wordField_lt w 6 6
  rw [wellFormed_iff, ← h.ch, ← h.lo, ← h.len]
  omega

theorem Carries.encode_eq {w : Word} {i : Instr} (h : Carries w i) : encode i = w := by
  rw [Laws.encode_eq, ← h.op, ← h.ch, ← h.lo, ← h.len, assembleWord_fields w h.rsv]

/-! ## The decoder -/

/-- The bits of `w` that an operand class does not use are zero (spec/30_encoding.md R72, R74). -/
def unusedZero (w : Word) : OperandClass → Bool
  | .cmdN => fieldCh w == 0 && fieldLo w == 0 && fieldLen w == 0 && fieldRsv w == 0
  | .cmdC => fieldLo w == 0 && fieldLen w == 0 && fieldRsv w == 0
  | .cmdL => fieldCh w == 0 && fieldLo w == 0 && fieldRsv w == 0
  | .cmdF => fieldCh w == 0 && fieldRsv w == 0

/-- The command `i` with its operands taken from the fields of `w`. -/
def readOperands (w : Word) : Instr → Instr
  | .setChannelBitstream _ => .setChannelBitstream (fieldCh w)
  | .getChannelBitstream _ => .getChannelBitstream (fieldCh w)
  | .setClockPattern _ => .setClockPattern (fieldCh w)
  | .intToBits _ => .intToBits (fieldLen w)
  | .bitsToInt _ => .bitsToInt (fieldLen w)
  | .fieldGet _ _ => .fieldGet (fieldLo w) (fieldLen w)
  | .fieldSet _ _ => .fieldSet (fieldLo w) (fieldLen w)
  | .embed _ => .embed (fieldCh w)
  | .extract _ => .extract (fieldCh w)
  | i => i

/-- The fields below `OP` hold a command's operands exactly where its unused bits are zero and reading its operands from
the word changes none of them. -/
theorem operands_eq_iff (w : Word) (i : Instr) :
    (fieldCh w = operandCh i ∧ fieldLo w = operandLo i ∧ fieldLen w = operandLen i ∧ fieldRsv w = 0) ↔
      unusedZero w (operandClass i) = true ∧ readOperands w i = i := by
  cases i <;> simp [operandCh, operandLo, operandLen, operandClass, unusedZero, readOperands, and_assoc] <;> tauto

theorem carries_iff (w : Word) (i : Instr) :
    Carries w i ↔ fieldOp w = opcode i ∧ unusedZero w (operandClass i) = true ∧ readOperands w i = i := by
  rw [← operands_eq_iff]
  exact ⟨fun ⟨op, ch, lo, len, rsv⟩ => ⟨op, ch, lo, len, rsv⟩,
    fun ⟨op, ch, lo, len, rsv⟩ => ⟨op, ch, lo, len, rsv⟩⟩

theorem acceptIf_eq_ok {zero : Bool} {i j : Instr} : acceptIf zero i = .ok j ↔ zero = true ∧ i = j := by
  cases zero <;> simp [acceptIf]

/-- What the decoder answers for a word with a command's opcode. -/
theorem decode_of_fieldOp {w : Word} {i : Instr} (h : fieldOp w = opcode i) :
    decode w = acceptIf (unusedZero w (operandClass i)) (readOperands w i) := by
  unfold decode
  rw [h]
  cases i <;> rfl

theorem fieldOp_of_decode_ok {w : Word} {i : Instr} (h : decode w = .ok i) : fieldOp w = opcode i := by
  unfold decode at h
  split at h
  case h_40 => cases h
  all_goals
    obtain ⟨-, rfl⟩ := acceptIf_eq_ok.1 h
    assumption

theorem decode_eq_ok_iff {w : Word} {i : Instr} : decode w = .ok i ↔ Carries w i := by
  rw [carries_iff]
  constructor
  · intro h
    have hop := fieldOp_of_decode_ok h
    exact ⟨hop, acceptIf_eq_ok.1 (decode_of_fieldOp hop ▸ h)⟩
  · rintro ⟨hop, hok⟩
    exact (decode_of_fieldOp hop).trans (acceptIf_eq_ok.2 hok)

/-! ## The opcode map -/

/-- The bits that an operand class fixes: `OP` and the fields it does not use (spec/30_encoding.md R72, R80). -/
def classMask : OperandClass → Word
  | .cmdN => 0xFFFFFFFF
  | .cmdC => 0xFC03FFFF
  | .cmdL => 0xFFFFF03F
  | .cmdF => 0xFFFC003F

/-- The row of a command. `mem_opcodeMap_iff` ties it to the map. -/
def rowOf (i : Instr) : OpcodeRow where
  mnemonic := mnemonic i
  opClass := operandClass i
  pattern := assembleWord (opcode i) 0 0 0
  mask := classMask (operandClass i)

/-- The 39 commands in the map's order, with every operand 0. -/
def commands : List Instr := [
  .initHigh, .initLow, .toBytes, .fromBytes, .setChannelBitstream 0, .getChannelBitstream 0, .setClockPattern 0,
  .intToBits 0, .bitsToInt 0, .fieldGet 0 0, .fieldSet 0 0, .pktClear,
  .getPacketType, .setPacketType, .getChipid, .setChipid, .getChannelid, .setChannelid, .getTimestamp, .setTimestamp,
  .getDataword, .setDataword, .getFifoHalf, .setFifoHalf, .getFifoFull, .setFifoFull,
  .getRegister, .setRegister, .getRegisterData, .setRegisterData, .getTestCounter, .setTestCounter,
  .getParity, .forceSetParity, .computeParity, .setParity, .checkParity, .embed 0, .extract 0]

theorem opcodeMap_eq : opcodeMap = commands.map rowOf := by decide

/-- A row does not depend on the operands. -/
theorem rowOf_readOperands (w : Word) (i : Instr) : rowOf (readOperands w i) = rowOf i := by cases i <;> rfl

/-- The word 0 has every operand 0. -/
theorem readOperands_zero_mem_commands (i : Instr) : readOperands 0 i ∈ commands := by
  cases i <;> exact of_decide_eq_true rfl

theorem mem_opcodeMap_iff {r : OpcodeRow} : r ∈ opcodeMap ↔ ∃ i, rowOf i = r := by
  rw [opcodeMap_eq, List.mem_map]
  constructor
  · rintro ⟨i, -, h⟩
    exact ⟨i, h⟩
  · rintro ⟨i, h⟩
    exact ⟨readOperands 0 i, readOperands_zero_mem_commands i, (rowOf_readOperands 0 i).trans h⟩

theorem fields_classMask (k : OperandClass) :
    fieldOp (classMask k) = 63 ∧ fieldRsv (classMask k) = 63 ∧
      fieldCh (classMask k) = (if k = .cmdC then 0 else 255) ∧ fieldLo (classMask k) = (if k = .cmdF then 0 else 63) ∧
      fieldLen (classMask k) = (if k = .cmdL ∨ k = .cmdF then 0 else 63) := by cases k <;> decide

/-- A row fixes the opcode and the bits its class does not use. -/
theorem masked_rowOf_iff (w : Word) (i : Instr) :
    w &&& (rowOf i).mask = (rowOf i).pattern ↔ fieldOp w = opcode i ∧ unusedZero w (operandClass i) = true := by
  obtain ⟨op, ch, lo, len, rsv⟩ :=
    fields_assembleWord (c := 0) (lo := 0) (len := 0) (opcode_lt i) (by omega) (by omega) (by omega)
  have hop : fieldOp w &&& 63 = fieldOp w := wordField_and_63 w 26
  have hch : fieldCh w &&& 255 = fieldCh w := wordField_and_255 w 18
  have hlo : fieldLo w &&& 63 = fieldLo w := wordField_and_63 w 12
  have hlen : fieldLen w &&& 63 = fieldLen w := wordField_and_63 w 6
  have hrsv : fieldRsv w &&& 63 = fieldRsv w := wordField_and_63 w 0
  rw [masked_eq_iff, rowOf, op, ch, lo, len, rsv]
  obtain ⟨mop, mrsv, mch, mlo, mlen⟩ := fields_classMask (operandClass i)
  rw [mop, mrsv, mch, mlo, mlen]
  cases operandClass i <;> simp [unusedZero, hop, hch, hlo, hlen, hrsv, and_assoc]

/-- A word matches a command's row exactly where it decodes to a command of that row. -/
theorem masked_rowOf_iff_decode {w : Word} {i : Instr} :
    w &&& (rowOf i).mask = (rowOf i).pattern ↔ ∃ j, decode w = .ok j ∧ rowOf j = rowOf i := by
  constructor
  · intro h
    obtain ⟨hop, hzero⟩ := (masked_rowOf_iff w i).1 h
    exact ⟨readOperands w i, (decode_of_fieldOp hop).trans (acceptIf_eq_ok.2 ⟨hzero, rfl⟩), rowOf_readOperands w i⟩
  · rintro ⟨j, hj, hrow⟩
    obtain ⟨hop, hzero, -⟩ := (carries_iff w j).1 (decode_eq_ok_iff.1 hj)
    exact hrow ▸ (masked_rowOf_iff w j).2 ⟨hop, hzero⟩

/-- A legal word matches the row of its command. -/
theorem masked_rowOf_of_decode_ok {w : Word} {i : Instr} (h : decode w = .ok i) :
    w &&& (rowOf i).mask = (rowOf i).pattern := masked_rowOf_iff_decode.2 ⟨i, h, rfl⟩

theorem decode_ok_iff_exists_row (w : Word) :
    (∃ i, decode w = .ok i) ↔ ∃ r ∈ opcodeMap, w &&& r.mask = r.pattern := by
  constructor
  · rintro ⟨i, h⟩
    exact ⟨rowOf i, mem_opcodeMap_iff.2 ⟨i, rfl⟩, masked_rowOf_of_decode_ok h⟩
  · rintro ⟨r, hr, hm⟩
    obtain ⟨i, rfl⟩ := mem_opcodeMap_iff.1 hr
    obtain ⟨j, hj, -⟩ := masked_rowOf_iff_decode.1 hm
    exact ⟨j, hj⟩

/-- Two rows that match one word are the row of the one command it decodes to. -/
theorem row_unique {w : Word} {r q : OpcodeRow} (hr : r ∈ opcodeMap) (hq : q ∈ opcodeMap)
    (hrw : w &&& r.mask = r.pattern) (hqw : w &&& q.mask = q.pattern) : r = q := by
  obtain ⟨i, rfl⟩ := mem_opcodeMap_iff.1 hr
  obtain ⟨k, rfl⟩ := mem_opcodeMap_iff.1 hq
  obtain ⟨i', hi', hi⟩ := masked_rowOf_iff_decode.1 hrw
  obtain ⟨k', hk', hk⟩ := masked_rowOf_iff_decode.1 hqw
  obtain rfl := Except.ok.inj (hi'.symm.trans hk')
  exact hi.symm.trans hk

end Sys2Proof.Laws
end

section
/-! PROOFS. Changing `ARG` under a command that does not read it, and the assembler's refusals and expansions. -/

namespace Sys2Proof.Machine

open Sys2Proof.Claims

/-! ## Checks at a changed state -/

section MapNext

variable {f : State → State} {s : State} {k k' : Host.Outcome State Fault Refusal}

/-- A change that keeps the input stream commutes with input admission. -/
theorem requireInput_mapNext (need : Nat) (hd : (f s).din = s.din) (hk : k' = mapNext f k) :
    requireInput need (f s) k' = mapNext f (requireInput need s k) := by
  rw [requireInput, requireInput, hd]
  split
  · rfl
  · exact hk

/-- A change that commutes with raising `RangeError` commutes with a range check. -/
theorem requireRange_mapNext (ok : Bool) (hr : (f s).raise .rangeError = f (s.raise .rangeError))
    (hk : k' = mapNext f k) : requireRange ok (f s) k' = mapNext f (requireRange ok s k) := by
  cases ok
  · exact congrArg Host.Outcome.next hr
  · exact hk

end MapNext

/-! ## Changing `ARG` (spec/30_encoding.md R81) -/

/-- `s` with `v` in `ARG`. -/
def State.withArg (v : Word) (s : State) : State := { s with arg := v }

section WithArg

variable {v : Word} {s : State}

theorem State.getField_withArg (lo len : Nat) : (s.withArg v).getField lo len = (s.getField lo len).withArg v := rfl

/-- A command that R81 does not list shows nothing of `ARG` in its outcome. -/
theorem exec_withArg {i : Instr} (hi : readsArg i = false) :
    exec i (s.withArg v) = mapNext (State.withArg v) (exec i s) := by
  cases i with
  | bitsToInt len => exact requireInput_mapNext _ rfl (requireRange_mapNext _ rfl rfl)
  | setClockPattern c => exact requireRange_mapNext _ rfl rfl
  | fieldGet lo len =>
    exact requireRange_mapNext _ rfl (requireRange_mapNext _ rfl
      (congrArg Host.Outcome.next (State.getField_withArg _ _)))
  | getPacketType | getChipid | getChannelid | getTimestamp | getDataword | getFifoHalf | getFifoFull | getRegister
  | getRegisterData | getParity => exact congrArg Host.Outcome.next (State.getField_withArg _ _)
  | initHigh | initLow | pktClear | getTestCounter | computeParity | setParity | checkParity => rfl
  | toBytes | fromBytes | setChannelBitstream | getChannelBitstream | intToBits | fieldSet | setPacketType | setChipid
  | setChannelid | setTimestamp | setDataword | setFifoHalf | setFifoFull | setRegister | setRegisterData
  | setTestCounter | forceSetParity | embed | extract => cases hi

end WithArg

/-! ## The assembler (spec/30_encoding.md R82, R83) -/

section Assembler

variable {i : Instr} {din : List Byte}

theorem assembleCommand_of_wellFormed (h : WellFormed i = true) :
    assembleCommand i din = some [.command (encode i) din] := if_pos h

theorem assembleCommand_of_not_wellFormed (h : WellFormed i = false) : assembleCommand i din = none := by
  rw [assembleCommand, h]; rfl

theorem assembleWithArg_of_wellFormed {v : Word} (ha : readsArg i = true) (h : WellFormed i = true) :
    assembleWithArg i v din = some [.writeArg v, .command (encode i) din] := by
  rw [assembleWithArg, if_pos ha, assembleCommand_of_wellFormed h]; rfl

/-- An operand that does not fit is refused whether or not the command reads `ARG`. -/
theorem assembleWithArg_of_not_wellFormed {v : Word} (h : WellFormed i = false) : assembleWithArg i v din = none := by
  rw [assembleWithArg, assembleCommand_of_not_wellFormed h]
  cases readsArg i <;> rfl

end Assembler

end Sys2Proof.Machine
end

section
/-! PROOFS. The statements of the family of spec/30_encoding.md. -/

namespace Sys2Proof.Proofs

open Sys2Proof.Machine Sys2Proof.Claims Sys2Proof.Laws

/-- Settles O1: the command word carries its command's opcode and operands, and the decoder reads just these. -/
theorem decodeOfEncode : Obligations.DecodeOfEncode := fun _ h => decode_eq_ok_iff.2 (carries_encode h)

/-- Settles O2: a legal word carries the command it decodes to, and so is assembled from that command's operands. -/
theorem encodeOfDecode : Obligations.EncodeOfDecode := fun _ _ h =>
  have hc := decode_eq_ok_iff.1 h
  ⟨hc.wellFormed, hc.encode_eq⟩

/-- Settles O3: a word matches a row exactly where it decodes to a command of that row; a word with no row does not
decode, and the step raises `IllegalCommand`. -/
theorem commandWordLegality : Obligations.CommandWordLegality := by
  refine ⟨decode_ok_iff_exists_row, fun w r q => row_unique, fun s w din rest hp hno => ?_⟩
  cases hw : decode w with
  | ok i =>
    obtain ⟨r, hr, hm⟩ := (decode_ok_iff_exists_row w).1 ⟨i, hw⟩
    exact absurd hm (hno r hr)
  | error e =>
    obtain rfl : s.pending.tail = rest := congrArg List.tail hp
    exact (step_illegal hp hw).trans rfl

/-- Settles O4: the map is the list of the commands' rows, and a row names its command's mnemonic and class. -/
theorem opcodeMapRows : Obligations.OpcodeMapRows := by
  refine ⟨rfl, fun r hr w hm => ?_, fun w i h =>
    ⟨rowOf i, mem_opcodeMap_iff.2 ⟨i, rfl⟩, rfl, rfl, masked_rowOf_of_decode_ok h⟩⟩
  obtain ⟨i, rfl⟩ := mem_opcodeMap_iff.1 hr
  obtain ⟨j, hj, hrow⟩ := masked_rowOf_iff_decode.1 hm
  exact ⟨j, hj, congrArg OpcodeRow.mnemonic hrow, congrArg OpcodeRow.opClass hrow⟩

/-- Settles O15: the outcome of a command that R81 does not list commutes with a change of `ARG`. -/
theorem argReadOnlyWhereListed : Obligations.ArgReadOnlyWhereListed := fun _ _ _ h => exec_withArg h

/-- Settles O60: by the assembler's equations; every channel up to 255 fits its field. -/
theorem pseudoExpansions : Obligations.PseudoExpansions := by
  refine ⟨fun i v din => assembleWithArg_of_wellFormed, fun type chip addr data => rfl, fun c o hc => ?_,
    fun i arg din h => ?_⟩
  · have he := assembleWithArg_of_wellFormed (i := .embed c) (v := o) (din := []) rfl (decide_eq_true hc)
    have hx := assembleWithArg_of_wellFormed (i := .extract c) (v := o) (din := []) rfl (decide_eq_true hc)
    rw [assemble, assemble, he, hx]
    exact ⟨rfl, rfl⟩
  · cases arg with
    | none => exact assembleCommand_of_not_wellFormed h
    | some v => exact assembleWithArg_of_not_wellFormed h

/-- Settles O6: the decoder evaluated at the nine words. -/
theorem writtenWordsDecode : Obligations.WrittenWordsDecode := by
  unfold Obligations.WrittenWordsDecode
  decide

end Sys2Proof.Proofs
end

-- The family of spec/40_sample_buffer.md: input admission, and the sample store and multiplexer commands.
section
/-! PROOFS. The command words with a channel. -/

namespace Sys2Proof.Laws

/-- A command of the class with a channel has no other operand. -/
theorem operandLo_operandLen_of_cmdC {i : Instr} (h : operandClass i = .cmdC) : operandLo i = 0 ∧ operandLen i = 0 := by
  cases i with
  | setChannelBitstream | getChannelBitstream | setClockPattern | embed | extract => exact ⟨rfl, rfl⟩
  | _ => cases h

/-- The word of a command with a channel is its opcode and the channel (spec/30_encoding.md R84). -/
theorem encode_cmdC {i : Instr} (h : operandClass i = .cmdC) :
    encode i = BitVec.ofNat 32 (opcode i) <<< 26 ||| BitVec.ofNat 32 (operandCh i) <<< 18 := by
  obtain ⟨hlo, hlen⟩ := operandLo_operandLen_of_cmdC h
  rw [encode_eq, hlo, hlen]
  simp [assembleWord]

/-- The word of a command with a channel that fits its field, as its opcode's pattern and the channel, decodes to it. -/
theorem decode_cmdC {i : Instr} {pattern : Word} (h : operandClass i = .cmdC)
    (hp : BitVec.ofNat 32 (opcode i) <<< 26 = pattern) (hc : operandCh i ≤ 255) :
    decode (pattern ||| BitVec.ofNat 32 (operandCh i) <<< 18) = .ok i := by
  obtain ⟨hlo, hlen⟩ := operandLo_operandLen_of_cmdC h
  rw [← hp, ← encode_cmdC h]
  exact decode_eq_ok_iff.2 (carries_encode ((wellFormed_iff i).2 ⟨hc, by omega, by omega⟩))

end Sys2Proof.Laws
end

section
/-! PROOFS. Input beyond the need, and what the writes of the multiplexer commands leave in the store, in the words of the
statements. -/

namespace Sys2Proof.Machine

open Sys2Proof.Claims

/-! ## Input admission (spec/40_sample_buffer.md R103) -/

/-- An admitted command answers a next state, whether or not its range checks pass. -/
theorem exists_exec_eq_next {i : Instr} {s : State} (hin : need s i ≤ s.din.length) : ∃ t, exec i s = .next t := by
  cases hr : rangeOk s i with
  | true => exact ⟨_, exec_of_rangeOk hin hr⟩
  | false => exact ⟨_, exec_of_not_rangeOk hin hr⟩

/-- A command faults exactly where its input is short. -/
theorem exec_eq_fault_iff (i : Instr) (s : State) :
    exec i s = .fault .inputNotAdmitted ↔ s.din.length < need s i := by
  constructor
  · intro hf
    by_contra hn
    obtain ⟨t, ht⟩ := exists_exec_eq_next (Nat.not_lt.1 hn)
    cases hf.symm.trans ht
  · intro hn
    rw [exec_eq, requireInput_of_lt hn]

/-- `s` with the input stream `din`. -/
def State.withDin (din : List Byte) (s : State) : State := { s with din := din }

section ExtraInput

variable {s : State} {i : Instr} {items : List Byte}

/-- A command takes no more items than it needs, so what it has done when it completes does not show the rest. -/
theorem complete_commandEffect_append (h : need s i ≤ items.length) (extra dout : List Byte) :
    (commandEffect (s.withDin (items ++ extra)) i).complete dout =
      (commandEffect (s.withDin items) i).complete dout := by
  have htake := List.take_append_of_le_length (l₂ := extra) h
  cases i with
  | fromBytes => exact congrArg (fun taken => (s.unpackBytes taken).complete dout) htake
  | setChannelBitstream c =>
    exact congrArg (fun taken => (s.writeSamples c 0 (taken.map byteSample)).complete dout) htake
  | bitsToInt len =>
    exact congrArg (fun taken => (s.setResult (bitsToInt (taken.map byteSample))).complete dout) htake
  | _ => rfl

theorem commandOutput_withDin (s : State) (i : Instr) (din : List Byte) :
    commandOutput (s.withDin din) i = commandOutput s i := by
  cases i <;> rfl

/-- Items beyond the need change nothing. -/
theorem exec_append_din (h : need s i ≤ items.length) (extra : List Byte) :
    exec i (s.withDin (items ++ extra)) = exec i (s.withDin items) := by
  have hlong : need (s.withDin (items ++ extra)) i ≤ (items ++ extra).length :=
    (need_congr rfl i).trans_le (h.trans (by simp))
  have hjust : need (s.withDin items) i ≤ items.length := (need_congr rfl i).trans_le h
  rw [exec_eq, exec_eq, requireInput_of_le hlong, requireInput_of_le hjust, complete_commandEffect_append h,
    commandOutput_withDin, commandOutput_withDin,
    rangeOk_congr (u := s.withDin (items ++ extra)) (s := s.withDin items) rfl rfl]
  rfl

end ExtraInput

/-! ## The items a counted command takes -/

section TakeCount

variable {s : State}

theorem getElem?_take_count {j : Nat} {b : Byte} (hj : j < clamped s) (hb : s.din[j]? = some b) :
    (s.din.take s.count)[j]? = some b := (List.getElem?_take_of_lt hj).trans hb

theorem length_take_count (h : clamped s ≤ s.din.length) : (s.din.take s.count).length = clamped s :=
  List.length_take_of_le h

end TakeCount

/-! ## Writes to the store -/

/-- Each sample of a run written from the start of a channel is stored. -/
theorem stored_writeSamples (s : State) (c : Nat) {bits : List Bool} {j : Nat} {b : Bool} (h : bits[j]? = some b) :
    stored (s.writeSamples c 0 bits).samples c j b := by
  have hread := read_samples_at s.samples c 0 bits j b h
  rwa [Nat.zero_add] at hread

/-- A run written from the start of a channel leaves every cell of no sample of the run as it was. -/
theorem keepsOthers_writeSamples (s : State) (c n : Nat) {bits : List Bool} (hn : bits.length = n) :
    keepsOthers s (s.writeSamples c 0 bits).samples (fun c' j => c' = c ∧ j < n) := by
  intro a ha
  refine read_samples_frame s.samples c 0 bits a fun j _ hj => ha c j ⟨rfl, ?_⟩
  omega

/-- Filling the store leaves every address outside its 8 × 1024 cells as it was. -/
theorem keepsOthers_fillSamples (s : State) (b : Bool) :
    keepsOthers s (s.fillSamples b).samples (fun c j => c < 8 ∧ j < 1024) := by
  intro a ha
  rw [State.fillSamples_samples, Memory.read_writeRun, List.length_map, length_fillBits, if_neg]
  unfold sampleAddress at *
  intro h
  exact ha (a / 1024) (a % 1024) (by omega) (by omega)

/-- A sample is the byte form its cell is written with, whatever it was before. -/
theorem State.sample_of_read {s : State} {c j : Nat} {b : Bool}
    (h : Memory.read s.samples (sampleAddress c j) = some (sampleByte b)) : s.sample c j = b := by
  unfold State.sample
  rw [h]
  exact byteSample_sampleByte b

/-- A sample depends on the memory and on the reset that the unwritten cells belong to. -/
theorem State.sample_congr {s u : State} (hm : u.samples = s.samples) (hr : u.resetNumber = s.resetNumber) (c j : Nat) :
    u.sample c j = s.sample c j := by
  rw [State.sample, State.sample, hm, hr]

/-- The samples after FROM_BYTES's writes. -/
theorem State.sample_unpackBytes (s : State) {bytes : List Byte} (hn : bytes.length ≤ 1024) {c j : Nat} (hc : c < 8)
    (hj : j < 1024) :
    (s.unpackBytes bytes).sample c j = if h : j < bytes.length then bytes[j].getLsbD c else s.sample c j := by
  have hread := read_unpackInto s.samples bytes hn c j hc hj
  by_cases h : j < bytes.length
  · rw [if_pos h, List.getElem?_eq_getElem h] at hread
    rw [dif_pos h]
    exact State.sample_of_read hread
  · rw [if_neg h] at hread
    rw [dif_neg h, State.sample, State.sample, State.unpackBytes_samples, hread, State.unpackBytes_resetNumber]

/-- Unpacking the packed bytes of the store's own samples changes no sample. -/
theorem State.sample_unpackBytes_packedByte (s : State) {n c j : Nat} (hn : n ≤ 1024) (hc : c < 8) (hj : j < 1024) :
    (s.unpackBytes ((List.range n).map s.packedByte)).sample c j = s.sample c j := by
  rw [s.sample_unpackBytes (by simpa using hn) hc hj]
  split
  · rw [List.getElem_map, List.getElem_range, getLsbD_packedByte s j c hc]
  · rfl

end Sys2Proof.Machine
end

section
/-! PROOFS. The statements of the family of spec/40_sample_buffer.md. -/

namespace Sys2Proof.Proofs

open Sys2Proof.Machine Sys2Proof.Claims Sys2Proof.Laws

/-- Settles O19: by the normal form of a command. Only input admission answers a fault, and a command takes no more items
than it needs. -/
theorem inputAdmission : Obligations.InputAdmission :=
  ⟨exec_eq_fault_iff, fun _ _ => exists_exec_eq_next, fun _ _ _ extra h => exec_append_din h extra⟩

/-- Settles O29: the 8192 addresses that are filled are the cells of the store. -/
theorem initFillsTheStore : Obligations.InitFillsTheStore :=
  ⟨by decide, by decide, fun s =>
    ⟨⟨_, exec_initHigh s, fun c j => read_fillSamples s true c j, keepsOthers_fillSamples s true⟩,
      ⟨_, exec_initLow s, fun c j => read_fillSamples s false c j, keepsOthers_fillSamples s false⟩⟩⟩

/-- Settles O30: bit `k` of a packed byte is channel `k`, and the cells read are the eight channels' below the count. -/
theorem toBytesPacksChannels : Obligations.ToBytesPacksChannels := by
  refine ⟨by decide, fun s => ⟨_, _, exec_toBytes s, by simp [clamped, State.count], fun j b hb k hk => ?_, ?_⟩⟩
  · obtain ⟨_, rfl⟩ := List.getElem?_eq_some_iff.1 hb
    rw [List.getElem_map, List.getElem_range]
    exact getLsbD_packedByte s j k hk
  · rw [State.uninitSampleRead_recordReads]
    simp only [mem_allChannelCells, Prod.exists, and_assoc]
    rfl

/-- Settles O31: the bytes taken are the first of the stream, and each is unpacked into the eight channels. -/
theorem fromBytesUnpacksChannels : Obligations.FromBytesUnpacksChannels := by
  refine ⟨by decide, fun s => ⟨fun hin => ⟨_, exec_fromBytes hin, fun j b hj hb c hc => ?_, fun a ha => ?_⟩,
    (exec_eq_fault_iff .fromBytes s).2⟩⟩
  · have hread := read_unpackInto s.samples (s.din.take s.count) (length_take_count_le s) c j hc
      (hj.trans_le s.count_le)
    rwa [length_take_count hin, if_pos hj, getElem?_take_count hj hb] at hread
  · refine read_unpackInto_frame _ _ a fun c hc j hj => ha c j ⟨hc, ?_⟩
    rwa [length_take_count hin] at hj

/-- Settles O32: the run written is the bytes taken, each as a sample. -/
theorem setChannelBitstreamWrites : Obligations.SetChannelBitstreamWrites := by
  refine ⟨fun c => decode_cmdC (i := .setChannelBitstream c) rfl (by rw [opcode]; decide), fun s c hin =>
    ⟨fun hc => ⟨_, exec_setChannelBitstream hin hc, fun j b hj hb => ?_, ?_⟩, exec_setChannelBitstream_range hin⟩⟩
  · refine stored_writeSamples s c ?_
    rw [List.getElem?_map, getElem?_take_count hj hb]
    rfl
  · exact keepsOthers_writeSamples s c (clamped s) ((List.length_map _).trans (length_take_count hin))

/-- Settles O33: each byte is the byte form of a sample, and the cells read are the channel's below the count. -/
theorem getChannelBitstreamEmits : Obligations.GetChannelBitstreamEmits := by
  refine ⟨fun c => decode_cmdC (i := .getChannelBitstream c) rfl (by rw [opcode]; decide), fun s c =>
    ⟨fun hc => ⟨_, _, exec_getChannelBitstream s hc, ?_, fun j b hb => ?_, ?_⟩, exec_getChannelBitstream_range s⟩⟩
  · simp [State.channelSamples, clamped, State.count]
  · obtain ⟨_, rfl⟩ := List.getElem?_eq_some_iff.1 hb
    simp only [State.channelSamples, List.getElem_map, List.getElem_range]
    rfl
  · rw [State.uninitSampleRead_recordReads]
    simp only [mem_channelCells, Prod.exists, and_assoc, exists_and_left, exists_eq_left]
    rfl

/-- Settles O34: the run written is the clock pattern, one sample for each index of the channel. -/
theorem setClockPatternWrites : Obligations.SetClockPatternWrites :=
  ⟨fun c => decode_cmdC (i := .setClockPattern c) rfl (by rw [opcode]; decide), fun s c =>
    ⟨fun hc => ⟨_, exec_setClockPattern s hc, fun _ hj => stored_writeSamples s c (getElem?_clockBits 1024 hj),
        keepsOthers_writeSamples s c 1024 (length_clockBits 1024)⟩,
      exec_setClockPattern_range s⟩⟩

/-- Settles O35: FROM_BYTES stores into each cell below the count the bit TO_BYTES read there, and leaves the others. -/
theorem fromBytesOfToBytes : Obligations.FromBytesOfToBytes := by
  intro s t bytes h hr
  obtain rfl := Host.Outcome.next.inj ((exec_toBytes s).symm.trans h)
  obtain rfl : (List.range s.count).map s.packedByte = bytes := by simpa using hr
  have hlen : ((List.range s.count).map s.packedByte).length = s.count := by simp
  refine ⟨_, exec_fromBytes hlen.ge, fun c j hc hj => ?_⟩
  calc _ = (s.unpackBytes (((List.range s.count).map s.packedByte).take s.count)).sample c j :=
        State.sample_congr rfl rfl c j
    _ = (s.unpackBytes ((List.range s.count).map s.packedByte)).sample c j := by rw [List.take_of_length_le hlen.le]
    _ = s.sample c j := s.sample_unpackBytes_packedByte s.count_le hc hj

end Sys2Proof.Proofs
end

-- The family of spec/41_bitfield.md: the two conversions and the bitfield decoder's commands.
section
/-! PROOFS. The command words with a length. -/

namespace Sys2Proof.Laws

/-- The word of a command without a channel, as its opcode's pattern and the other two operands, decodes to it where
they fit their fields (spec/30_encoding.md R84). -/
theorem decode_of_no_channel {i : Instr} {pattern : Word} (hch : operandCh i = 0)
    (hp : BitVec.ofNat 32 (opcode i) <<< 26 = pattern) (hlo : operandLo i ≤ 63) (hlen : operandLen i ≤ 63) :
    decode (pattern ||| BitVec.ofNat 32 (operandLo i) <<< 12 ||| BitVec.ofNat 32 (operandLen i) <<< 6) = .ok i := by
  have hw := decode_eq_ok_iff.2 (carries_encode ((wellFormed_iff i).2 ⟨by omega, hlo, hlen⟩))
  rw [encode_eq, assembleWord, hch, hp] at hw
  simpa using hw

/-- The word of a command with no operand but a length decodes to it where the length fits its field. -/
theorem decode_of_length_only {i : Instr} {pattern : Word} (hch : operandCh i = 0) (hlo : operandLo i = 0)
    (hp : BitVec.ofNat 32 (opcode i) <<< 26 = pattern) (hlen : operandLen i ≤ 63) :
    decode (pattern ||| BitVec.ofNat 32 (operandLen i) <<< 6) = .ok i := by
  simpa [hlo] using decode_of_no_channel hch hp (by omega) hlen

end Sys2Proof.Laws
end

section
/-! PROOFS. The two conversions undo each other (spec/41_bitfield.md R142), and the bits of the words and bytes the
commands give. -/

namespace Sys2Proof.Machine

/-! ## The conversions -/

/-- A value split into `len` bits and put together again is the value modulo `2 ^ len`, whatever `len`. -/
theorem bitsToInt_intToBits (v len : Nat) : bitsToInt (intToBits v len) = v % 2 ^ len := by
  apply Nat.eq_of_testBit_eq
  intro i
  rw [testBit_bitsToInt, getElem?_intToBits, Nat.testBit_mod_two_pow]
  by_cases h : i < len <;> simp [h]

/-- A sequence of bits put together and split into as many bits is the sequence. -/
theorem intToBits_bitsToInt (b : List Bool) : intToBits (bitsToInt b) b.length = b := by
  apply List.ext_getElem?
  intro i
  rw [getElem?_intToBits, testBit_bitsToInt]
  by_cases h : i < b.length <;> simp [h]

/-! ## Bits -/

/-- Bit `i` of a word split into bits, in its byte form. -/
theorem getElem?_intToBits_sampleByte (w : Word) {len i : Nat} (h : i < len) :
    ((intToBits w.toNat len).map sampleByte)[i]? = some (sampleByte (w.getLsbD i)) := by
  rw [List.getElem?_map, getElem?_intToBits, if_pos h, BitVec.testBit_toNat, Option.map_some]

/-- Bit `i` of the number BITS_TO_INT gives says whether item `i` is one of the `len` items it takes and is non-zero. -/
theorem testBit_bitsToInt_take (din : List Byte) (len i : Nat) :
    (bitsToInt ((din.take len).map byteSample)).testBit i = (decide (i < len) && din[i]?.getD 0 != 0) := by
  rw [testBit_bitsToInt, List.getElem?_map, List.getElem?_take]
  by_cases h : i < len
  · rw [if_pos h]
    cases din[i]? <;> simp [h, byteSample]
  · simp [h]

/-- The 32 bits of `RESULT` are the low bits of the number it takes. -/
theorem State.getLsbD_setResult (s : State) (v : Nat) {i : Nat} (hi : i < 32) :
    (s.setResult v).result.getLsbD i = v.testBit i := by
  rw [State.setResult_result, BitVec.getLsbD_ofNat, decide_eq_true hi, Bool.true_and]

end Sys2Proof.Machine
end

section
/-! PROOFS. The statements of the family of spec/41_bitfield.md. -/

namespace Sys2Proof.Proofs

open Sys2Proof.Machine Sys2Proof.Claims Sys2Proof.Laws

/-- Settles O36: bit by bit; keeping the low `len` bits is the remainder by `2 ^ len`. -/
theorem conversionsInverse : Obligations.ConversionsInverse := by
  refine ⟨fun v len _ _ => ?_, fun b len _ hb => ?_⟩
  · rw [bitsToInt_intToBits, Nat.and_two_pow_sub_one_eq_mod]
  · rw [← hb, intToBits_bitsToInt]

/-- Settles O37: the bytes are the byte forms of the bits of `ARG`. -/
theorem intToBitsEmits : Obligations.IntToBitsEmits :=
  ⟨fun len => decode_of_length_only (i := .intToBits len) rfl rfl (by rw [opcode]; decide), fun s _ =>
    ⟨fun hl => ⟨_, exec_intToBits s hl, by simp, fun _ hi => getElem?_intToBits_sampleByte s.arg hi⟩,
      exec_intToBits_range s⟩⟩

/-- Settles O38: the number's bits are the items taken, each as one sample. -/
theorem bitsToIntValue : Obligations.BitsToIntValue := by
  refine ⟨fun len => decode_of_length_only (i := .bitsToInt len) rfl rfl (by rw [opcode]; decide), fun s len =>
    ⟨fun hin hl => ⟨_, exec_bitsToInt hin hl, fun i hi => ?_⟩, exec_bitsToInt_range,
      (exec_eq_fault_iff (.bitsToInt len) s).2⟩⟩
  exact (s.getLsbD_setResult _ hi).trans (testBit_bitsToInt_take s.din len i)

/-- Settles O39: the number's bits are the field's. -/
theorem fieldGetReads : Obligations.FieldGetReads := by
  refine ⟨fun lo hlo len hlen => decode_of_no_channel (i := .fieldGet lo len) rfl (by rw [opcode]; decide) hlo hlen,
    fun s lo len => ⟨fun hl hf => ⟨_, exec_fieldGet s hl hf, fun i hi => ?_⟩, exec_fieldGet_range s⟩⟩
  exact (s.getLsbD_setResult _ hi).trans (testBit_fieldValue s.packet lo len i)

/-- Settles O40: writing the field leaves the offsets outside it; its bit at offset `k` is bit `k - lo` of `ARG`. -/
theorem fieldSetWrites : Obligations.FieldSetWrites := by
  refine ⟨fun lo hlo len hlen => decode_of_no_channel (i := .fieldSet lo len) rfl (by rw [opcode]; decide) hlo hlen,
    fun s lo len => ⟨fun hl hf => ⟨_, exec_fieldSet s hl hf, fun k hk => ?_⟩, exec_fieldSet_range s⟩⟩
  exact getLsbD_withField s.packet lo len s.arg.toNat k hk

/-- Settles O41: the command has no check. -/
theorem pktClearZeroes : Obligations.PktClearZeroes := ⟨by decide, exec_pktClear⟩

end Sys2Proof.Proofs
end

-- The family of spec/42_packet_fields.md: the accessors of the named fields and of the test counter.
section
/-! PROOFS. Reads and writes at two ranges of the packet register, the accessors of every named field as one, and the
offsets that a command can write. -/

namespace Sys2Proof.Machine

open Sys2Proof.Claims

/-! ## Reads and writes at ranges of the packet register -/

/-- Writing a field leaves the value of a field at other offsets. -/
theorem fieldValue_withField_of_disjoint (p : Packet) {lo len lo' len' : Nat} (v : Nat) (hin : lo' + len' ≤ 54)
    (h : lo + len ≤ lo' ∨ lo' + len' ≤ lo) : fieldValue (withField p lo len v) lo' len' = fieldValue p lo' len' := by
  apply Nat.eq_of_testBit_eq
  intro i
  rw [testBit_fieldValue, testBit_fieldValue]
  by_cases hi : i < len'
  · rw [getLsbD_withField _ _ _ _ _ (by omega), if_neg (by omega)]
  · simp [hi]

/-- Writes at disjoint offsets commute. -/
theorem withField_comm (p : Packet) {lo len lo' len' : Nat} (v w : Nat) (h : lo + len ≤ lo' ∨ lo' + len' ≤ lo) :
    withField (withField p lo len v) lo' len' w = withField (withField p lo' len' w) lo len v := by
  refine BitVec.eq_of_getLsbD_eq fun k hk => ?_
  simp only [getLsbD_withField _ _ _ _ _ hk]
  by_cases hk' : lo' ≤ k ∧ k < lo' + len'
  · rw [if_pos hk', if_neg (by omega), if_pos hk']
  · rw [if_neg hk', if_neg hk']

/-- A slice of the register as a bit vector holds the field's value. -/
theorem toNat_extractLsb'_eq_fieldValue (p : Packet) (lo len : Nat) :
    (p.extractLsb' lo len).toNat = fieldValue p lo len := by
  rw [BitVec.extractLsb'_toNat, Nat.shiftRight_eq_div_pow, fieldValue_eq]

/-! ## The test counter -/

theorem testCounter_lt (p : Packet) : testCounter p < 2 ^ 16 := by
  rw [testCounter_eq]
  omega

/-- The counter's value read back from its two ranges, each as it was written. -/
theorem testCounter_withTestCounter (p : Packet) (v : Nat) : testCounter (withTestCounter p v) = v % 2 ^ 16 := by
  have low : fieldValue (withTestCounter p v) 41 12 = v % 2 ^ 12 :=
    (fieldValue_withField_of_disjoint _ _ (by omega) (by omega)).trans (fieldValue_withField p 41 12 v (by omega))
  have high : fieldValue (withTestCounter p v) 10 4 = v / 2 ^ 12 % 2 ^ 4 :=
    (fieldValue_withField _ 10 4 _ (by omega)).trans (by rw [Nat.shiftRight_eq_div_pow])
  rw [testCounter_eq, ← fieldValue_eq, ← fieldValue_eq, low, high]
  omega

/-- The counter's setter commutes with a write clear of both its ranges. -/
theorem withTestCounter_withField (p : Packet) {lo len : Nat} (v w : Nat)
    (h : lo + len ≤ 10 ∨ (14 ≤ lo ∧ lo + len ≤ 41) ∨ 53 ≤ lo) :
    withTestCounter (withField p lo len v) w = withField (withTestCounter p w) lo len v := by
  unfold withTestCounter
  rw [withField_comm p v w (by omega), withField_comm _ v _ (by omega)]

/-! ## `RESULT` -/

/-- `RESULT` holds a value that fits it. -/
theorem State.toNat_setResult (s : State) {v : Nat} (hv : v < 2 ^ 32) : (s.setResult v).result.toNat = v :=
  (BitVec.toNat_ofNat v 32).trans (Nat.mod_eq_of_lt hv)

/-- `RESULT` holds the whole value of a field that is no wider than it. -/
theorem State.toNat_getField (s : State) (lo : Nat) {len : Nat} (hl : len ≤ 32) :
    (s.getField lo len).result.toNat = fieldValue s.packet lo len :=
  s.toNat_setResult ((fieldValue_lt _ _ _).trans_le (Nat.pow_le_pow_right (by omega) hl))

/-- `RESULT` holds the whole test counter. -/
theorem State.toNat_setResult_testCounter (s : State) :
    (s.setResult (testCounter s.packet)).result.toNat = testCounter s.packet :=
  s.toNat_setResult ((testCounter_lt s.packet).trans (by decide))

/-! ## The named fields (spec/42_packet_fields.md R170) -/

section NamedField

variable {f : NamedField} (hf : f ∈ namedFields)

include hf

/-- The setter of a named field writes the field's range, which no operand can put out of range. -/
theorem exec_namedField_setter (s : State) : exec f.setter s = .next (s.setField f.lo f.width) := by
  simp only [namedFields, List.mem_cons, List.not_mem_nil, or_false] at hf
  rcases hf with rfl | rfl | rfl | rfl | rfl | rfl | rfl | rfl | rfl | rfl <;> rfl

/-- A named field passes both range checks of the field commands. -/
theorem namedField_bounds : f.width ≤ 32 ∧ f.lo + f.width ≤ 54 := by
  revert f
  decide

theorem decode_namedField : decode f.getWord = .ok f.getter ∧ decode f.setWord = .ok f.setter := by
  revert f
  decide

end NamedField

/-! ## The offsets of the packet register that a command can write -/

/-- Offset `k` lies in a range of the packet register that the command writes. `exec_next_getLsbD_packet` ties it to
`exec`. -/
def writesOffset (k : Nat) : Instr → Prop
  | .fieldSet lo len => lo ≤ k ∧ k < lo + len
  | .setPacketType => 0 ≤ k ∧ k < 0 + 2
  | .setChipid => 2 ≤ k ∧ k < 2 + 8
  | .setChannelid => 10 ≤ k ∧ k < 10 + 7
  | .setTimestamp => 17 ≤ k ∧ k < 17 + 24
  | .setDataword => 41 ≤ k ∧ k < 41 + 10
  | .setFifoHalf => 51 ≤ k ∧ k < 51 + 1
  | .setFifoFull => 52 ≤ k ∧ k < 52 + 1
  | .setRegister => 10 ≤ k ∧ k < 10 + 8
  | .setRegisterData => 18 ≤ k ∧ k < 18 + 8
  | .setTestCounter => (41 ≤ k ∧ k < 41 + 12) ∨ (10 ≤ k ∧ k < 10 + 4)
  | .forceSetParity => 53 ≤ k ∧ k < 53 + 1
  | .setParity => k = 53
  | .pktClear | .extract _ => True
  | _ => False

/-- A command's effect keeps every offset outside the ranges it writes. -/
theorem getLsbD_packet_commandEffect {i : Instr} {k : Nat} (s : State) (hk : k < 54) (hout : ¬ writesOffset k i) :
    (commandEffect s i).packet.getLsbD k = s.packet.getLsbD k := by
  cases i with
  | fieldSet | setPacketType | setChipid | setChannelid | setTimestamp | setDataword | setFifoHalf | setFifoFull
  | setRegister | setRegisterData | forceSetParity =>
    exact (getLsbD_withField _ _ _ _ k hk).trans (if_neg hout)
  | setTestCounter =>
    obtain ⟨hlow, hhigh⟩ := not_or.1 hout
    exact (getLsbD_withTestCounter _ _ k hk).trans ((if_neg hlow).trans (if_neg hhigh))
  | setParity => exact (getLsbD_setPacketBit _ _ _ k hk).trans (if_neg hout)
  | pktClear | extract => exact absurd trivial hout
  | _ => simp [commandEffect]

/-- A command that answers a next state raised `RangeError`, or did its effect and completed with its output. -/
theorem exec_next_eq {i : Instr} {s t : State} (h : exec i s = .next t) :
    t = s.raise .rangeError ∨ t = (commandEffect s i).complete (commandOutput s i) := by
  rw [exec_eq] at h
  obtain ⟨-, h⟩ := requireInput_eq_next h
  obtain ⟨-, h⟩ | ⟨-, h⟩ := requireRange_eq_next h
  · exact .inr (Host.Outcome.next.inj h).symm
  · exact .inl h

/-- The frame of the packet register: a command keeps every offset outside the ranges it writes. -/
theorem exec_next_getLsbD_packet {i : Instr} {s t : State} {k : Nat} (h : exec i s = .next t) (hk : k < 54)
    (hout : ¬ writesOffset k i) : t.packet.getLsbD k = s.packet.getLsbD k := by
  obtain rfl | rfl := exec_next_eq h
  · rfl
  · exact getLsbD_packet_commandEffect s hk hout

/-! ## The packet type -/

/-- The setter of the packet type with a type's code in `ARG`, under a legal `PTYPE_CODE`, makes the packet that type. -/
theorem State.packetType_setField {s : State} {ty : PacketType} (hlegal : s.build.packetTypeCode.legal = true)
    (harg : s.arg = (s.build.packetTypeCode.code ty).setWidth 32) : (s.setField 0 2).packetType = ty := by
  have hcode : (s.setField 0 2).packet.extractLsb' 0 2 = s.build.packetTypeCode.code ty := by
    apply BitVec.eq_of_toNat_eq
    rw [toNat_extractLsb'_eq_fieldValue, State.setField_packet, fieldValue_withField _ _ _ _ (by omega), harg,
      BitVec.toNat_setWidth]
    omega
  rw [State.packetType, hcode]
  exact typeOf_code _ hlegal ty

end Sys2Proof.Machine
end

section
/-! PROOFS. The statements of the family of spec/42_packet_fields.md. -/

namespace Sys2Proof.Proofs

open Sys2Proof.Machine Sys2Proof.Claims

/-- Settles O42: both sides are the field's read, or its write, since the field passes the range checks. -/
theorem accessorsAreFieldCommands : Obligations.AccessorsAreFieldCommands := by
  intro f hf s
  obtain ⟨hw, hr⟩ := namedField_bounds hf
  exact ⟨(exec_namedField_getter hf s).trans (exec_fieldGet s hw hr).symm,
    (exec_namedField_setter hf s).trans (exec_fieldSet s hw hr).symm⟩

/-- Settles O43: the field's value is its slice of the register, and fits `RESULT`. -/
theorem namedGettersRead : Obligations.NamedGettersRead := by
  intro f hf
  obtain ⟨hw, -⟩ := namedField_bounds hf
  exact ⟨(decode_namedField hf).1, fun s => ⟨_, exec_namedField_getter hf s,
    (s.toNat_getField f.lo hw).trans (fieldValue_eq s.packet f.lo f.width)⟩⟩

/-- Settles O44: bit by bit, by what writing a field does. -/
theorem namedSettersWrite : Obligations.NamedSettersWrite := fun f hf =>
  ⟨(decode_namedField hf).2, fun s => ⟨_, exec_namedField_setter hf s,
    getLsbD_withField s.packet f.lo f.width s.arg.toNat⟩⟩

/-- Settles O45: the counter fits `RESULT`. -/
theorem testCounterReads : Obligations.TestCounterReads :=
  ⟨by decide, fun s => ⟨_, exec_getTestCounter s,
    s.toNat_setResult_testCounter.trans (testCounter_eq s.packet)⟩⟩

/-- Settles O46: bit by bit, by what writing the counter does. -/
theorem testCounterWrites : Obligations.TestCounterWrites := by
  refine ⟨by decide, fun s => ⟨_, exec_setTestCounter s, fun k hk => ?_⟩⟩
  have hbit := getLsbD_withTestCounter s.packet s.arg.toNat k hk
  simpa only [State.setPacket_packet, Nat.lt_succ_iff, Nat.reduceAdd, Nat.add_comm 12, BitVec.testBit_toNat] using hbit

/-- Settles O47: reading a range that was just written gives the value truncated to the range. -/
theorem setThenGet : Obligations.SetThenGet := by
  refine ⟨fun f hf s => ?_, fun s => ⟨_, _, exec_setTestCounter s, exec_getTestCounter _, ?_⟩⟩
  · obtain ⟨hw, hr⟩ := namedField_bounds hf
    refine ⟨_, _, exec_namedField_setter hf s, exec_namedField_getter hf _, ?_⟩
    exact (State.toNat_getField _ f.lo hw).trans (fieldValue_withField s.packet f.lo f.width s.arg.toNat hr)
  · rw [State.complete_result, State.toNat_setResult_testCounter, State.complete_packet, State.setPacket_packet,
      testCounter_withTestCounter]

/-- Settles O48: writes at disjoint offsets commute, and the test counter's setter is two such writes. -/
theorem disjointSettersCommute : Obligations.DisjointSettersCommute := by
  refine ⟨fun f hf g hg hd s v w => ?_, fun f hf hd s v w => ?_⟩
  · exact ⟨_, _, _, _, exec_namedField_setter hf _, exec_namedField_setter hg _, exec_namedField_setter hg _,
      exec_namedField_setter hf _, withField_comm s.packet v.toNat w.toNat hd⟩
  · exact ⟨_, _, _, _, exec_namedField_setter hf _, exec_setTestCounter _, exec_setTestCounter _,
      exec_namedField_setter hf _, withTestCounter_withField s.packet v.toNat w.toNat hd⟩

/-- Settles O49: the offsets without a name lie outside the ranges these commands write. -/
theorem unnamedOffsetsKept : Obligations.UnnamedOffsetsKept := by
  refine ⟨fun i hi s t h k hlo hhi => exec_next_getLsbD_packet h (by omega) ?_,
    fun i hi s t h k hlo hhi => exec_next_getLsbD_packet h (by omega) ?_⟩
  all_goals simp only [List.mem_cons, List.not_mem_nil, or_false] at hi
  · rcases hi with rfl | rfl | rfl | rfl | rfl | rfl <;> simp only [writesOffset] <;> omega
  · rcases hi with rfl | rfl | rfl | rfl | rfl <;> simp only [writesOffset] <;> omega

/-- Settles O50: a legal `PTYPE_CODE` names the written code as its type; the canonical codes are literals. -/
theorem packetTypeNames : Obligations.PacketTypeNames := by
  refine ⟨fun s ty hlegal harg => ⟨_, exec_setPacketType s, State.packetType_setField ?_ harg⟩, rfl, rfl, rfl, rfl⟩
  obtain ⟨-, hcodes⟩ := Bool.and_eq_true_iff.1 hlegal
  exact hcodes

end Sys2Proof.Proofs
end

-- The family of spec/43_parity.md: the parity commands and the laws of parity.
section
/-! PROOFS. The number of 1-bits of the packet register, and what it says about the computed parity and about the result
of CHECK_PARITY. -/

namespace Sys2Proof.Machine

open Sys2Proof.Claims

/-! ## The number of 1-bits -/

theorem ones_succ (p : Packet) (n : Nat) : ones p (n + 1) = ones p n + (p.getLsbD n).toNat := by
  unfold ones
  rw [List.range_succ, List.filter_append, List.length_append]
  cases h : p.getLsbD n <;> simp [h]

theorem ones_congr {p q : Packet} {n : Nat} (h : ∀ k < n, p.getLsbD k = q.getLsbD k) : ones p n = ones q n :=
  congrArg List.length (List.filter_congr fun k hk => h k (List.mem_range.1 hk))

/-- Flipping one of the offsets counted makes an odd number of 1-bits even and an even one odd. -/
theorem ones_flip_mod_two {p q : Packet} {n i : Nat} (hi : i < n)
    (h : ∀ k < n, q.getLsbD k = if k = i then !p.getLsbD k else p.getLsbD k) : ones q n % 2 = 1 - ones p n % 2 := by
  induction n with
  | zero => omega
  | succ n ih =>
    have hlast := h n (by omega)
    rw [ones_succ, ones_succ]
    by_cases hin : n = i
    · have hbelow : ones q n = ones p n :=
        ones_congr fun k hk => (h k (by omega)).trans (if_neg (by omega))
      have hbits : (!p.getLsbD n).toNat + (p.getLsbD n).toNat = 1 := by cases p.getLsbD n <;> rfl
      rw [hbelow, hlast, if_pos hin]
      omega
    · have hbelow := ih (by omega) fun k hk => h k (by omega)
      rw [hlast, if_neg hin]
      omega

/-! ## The computed parity (spec/43_parity.md R230) and CHECK_PARITY's result -/

theorem computeParity_eq_ones (p : Packet) : computeParity p = decide (ones p 53 % 2 = 0) := computeParity_eq p

/-- The stored bit is the computed one exactly where the whole packet has an odd number of 1-bits. -/
theorem storedParity_eq_computeParity_iff (p : Packet) : storedParity p = computeParity p ↔ ones p 54 % 2 = 1 := by
  have hsucc : ones p 54 = ones p 53 + (storedParity p).toNat := ones_succ p 53
  rw [computeParity_eq_ones, hsucc, eq_comm]
  cases storedParity p
  · rw [decide_eq_false_iff_not, Bool.toNat_false]
    omega
  · rw [decide_eq_true_iff, Bool.toNat_true]
    omega

/-- CHECK_PARITY gives 0 where the whole packet has an odd number of 1-bits, and 1 where it has an even number. -/
theorem parityMismatch_eq_ones (p : Packet) : parityMismatch p = if ones p 54 % 2 = 1 then 0 else 1 :=
  if_congr (storedParity_eq_computeParity_iff p) rfl rfl

/-- SET_PARITY's write keeps the offsets before the parity bit. -/
theorem getLsbD_setParityBit_of_lt (p : Packet) (b : Bool) {k : Nat} (hk : k < 53) :
    (setPacketBit p 53 b).getLsbD k = p.getLsbD k :=
  (getLsbD_setPacketBit p 53 b k (by omega)).trans (if_neg (by omega))

theorem storedParity_setParityBit (p : Packet) (b : Bool) : storedParity (setPacketBit p 53 b) = b :=
  (getLsbD_setPacketBit p 53 b 53 (by decide)).trans (if_pos rfl)

theorem computeParity_setParityBit (p : Packet) (b : Bool) : computeParity (setPacketBit p 53 b) = computeParity p :=
  computeParity_congr _ _ fun _ hk => getLsbD_setParityBit_of_lt p b hk

/-! ## The parity commands by the number of 1-bits -/

/-- SET_PARITY leaves an odd number of 1-bits in the packet. -/
theorem ones_packet_of_exec_setParity {s t : State} (h : exec .setParity s = .next t) : ones t.packet 54 % 2 = 1 := by
  obtain rfl := Host.Outcome.next.inj ((exec_setParity s).symm.trans h)
  exact (storedParity_eq_computeParity_iff _).1
    ((storedParity_setParityBit _ _).trans (computeParity_setParityBit _ _).symm)

/-- `RESULT` of CHECK_PARITY by the number of 1-bits of the packet. -/
theorem exec_checkParity_result (s : State) : ∃ u, exec .checkParity s = .next u ∧
    u.result = if ones s.packet 54 % 2 = 1 then 0 else 1 := by
  refine ⟨_, exec_checkParity s, ?_⟩
  rw [State.complete_result, State.setResult_result, parityMismatch_eq_ones]
  split <;> rfl

end Sys2Proof.Machine
end

section
/-! PROOFS. The statements of the family of spec/43_parity.md. -/

namespace Sys2Proof.Proofs

open Sys2Proof.Machine Sys2Proof.Claims

/-- Settles O51: the computed parity says whether the number of 1-bits is even. -/
theorem computeParityValue : Obligations.ComputeParityValue := by
  refine ⟨by decide, fun s => (exec_computeParity s).trans ?_⟩
  rw [computeParity_eq_ones]
  by_cases h : ones s.packet 53 % 2 = 0
  · rw [decide_eq_true h, if_pos h]
    rfl
  · rw [decide_eq_false h, if_neg h]
    rfl

/-- Settles O52: SET_PARITY writes offset 53 alone, which the computed parity does not look at. -/
theorem setParityWrites : Obligations.SetParityWrites := by
  refine ⟨by decide, fun s => ⟨_, exec_setParity s, fun k hk => getLsbD_setParityBit_of_lt _ _ hk, ?_, ?_⟩⟩
  · exact (storedParity_setParityBit _ _).trans (computeParity_eq_ones s.packet)
  · have hsecond := setParityBit_setParityBit s.packet
    exact (exec_setParity _).trans
      (congrArg (fun p => Host.Outcome.next { ended (ended s 0 []) 0 [] with packet := p }) hsecond)

/-- Settles O53: CHECK_PARITY compares the stored bit with the computed one. -/
theorem checkParityValue : Obligations.CheckParityValue := by
  refine ⟨by decide, fun s => (exec_checkParity s).trans ?_⟩
  rw [← computeParity_eq_ones, parityMismatch, storedParity]
  split <;> rfl

/-- Settles O54: SET_PARITY makes the number of 1-bits odd, a flip makes it even, and CHECK_PARITY tells which it is. -/
theorem parityLaws : Obligations.ParityLaws := by
  refine ⟨fun s t h => ?_, fun s t q i h hi hq => ?_, computeParity_congr, fun s => ?_⟩
  · have hodd := ones_packet_of_exec_setParity h
    obtain ⟨u, hu, hr⟩ := exec_checkParity_result t
    exact ⟨hodd, u, hu, hr.trans (if_pos hodd)⟩
  · have hodd := ones_packet_of_exec_setParity h
    have heven : ¬ ones q 54 % 2 = 1 := by rw [ones_flip_mod_two (by omega) hq, hodd]; decide
    obtain ⟨u, hu, hr⟩ := exec_checkParity_result { t with packet := q }
    exact ⟨u, hu, hr.trans (if_neg heven)⟩
  · obtain ⟨u, hu, hr⟩ := exec_checkParity_result s
    refine ⟨u, hu, ?_⟩
    rw [hr]
    by_cases h : ones s.packet 54 % 2 = 1 <;> simp [h]

end Sys2Proof.Proofs
end

-- The family of spec/44_framing.md: EMBED and EXTRACT.
section
/-! PROOFS. What EMBED leaves in the sample store, in the words of the statements, and what EXTRACT and TO_BYTES read
from it. -/

namespace Sys2Proof.Machine

open Sys2Proof.Claims

/-! ## The framed packet (spec/44_framing.md R250) -/

theorem frameBit_eq_logicalBit (p : Packet) (t : Nat) : frameBit p t = logicalBit p t := by
  cases t with
  | zero => rfl
  | succ t => simp [frameBit, logicalBit]

/-- Past the start bit come the packet's bits. -/
theorem logicalBit_succ (p : Packet) {i : Nat} (hi : i < 54) : logicalBit p (i + 1) = p.getLsbD i :=
  if_neg (Nat.ne_of_lt hi)

/-- The samples of every logical bit lie inside the frame. -/
theorem frameSample_lt {t k b : Nat} (ht : t < 56) (hk : k < b) : t * b + k < 56 * b :=
  calc t * b + k < (t + 1) * b := by rw [Nat.succ_mul]; omega
    _ ≤ 56 * b := Nat.mul_le_mul_right b ht

/-- The framed packet written from index `o` of a channel has each logical bit at its own samples. -/
theorem stored_writeFrame (s : State) (c o : Nat) (p : Packet) {b t k : Nat} (ht : t < 56) (hk : k < b) :
    stored (s.writeSamples c o (frameSamples p b)).samples c (o + t * b + k) (logicalBit p t) := by
  have hread := read_samples_at s.samples c o _ _ _ (getElem?_frameSamples p b t k ht hk)
  rwa [frameBit_eq_logicalBit, ← Nat.add_assoc] at hread

/-- The framed packet written from index `o` of a channel leaves every cell outside the frame as it was. -/
theorem keepsOthers_writeFrame (s : State) (c o : Nat) (p : Packet) (b : Nat) :
    keepsOthers s (s.writeSamples c o (frameSamples p b)).samples (fun c' j => c' = c ∧ o ≤ j ∧ j < o + 56 * b) := by
  intro a ha
  refine read_samples_frame s.samples c o _ a fun j hoj hj => ha c j ⟨rfl, hoj, ?_⟩
  rwa [length_frameSamples] at hj

/-- EMBED leaves each logical bit of the framed packet at its own samples (spec/44_framing.md R252). -/
theorem stored_of_exec_embed {s t : State} {c l k : Nat} (hc : c < 8)
    (hfit : s.arg.toNat + 56 * s.build.bitsPerBaud.samples ≤ 1024) (h : exec (.embed c) s = .next t) (hl : l < 56)
    (hk : k < s.build.bitsPerBaud.samples) :
    stored t.samples c (s.arg.toNat + l * s.build.bitsPerBaud.samples + k) (logicalBit s.packet l) := by
  obtain rfl := Host.Outcome.next.inj ((exec_embed s hc hfit).symm.trans h)
  exact stored_writeFrame s c s.arg.toNat s.packet hl hk

/-! ## Reading the frame -/

section Stored

variable {s : State} {c j : Nat} {b : Bool}

theorem State.sample_of_stored (h : stored s.samples c j b) : s.sample c j = b := State.sample_of_read h

theorem State.sampleValid_of_stored (h : stored s.samples c j b) : s.sampleValid c j = true :=
  Option.isSome_of_eq_some h

end Stored

/-- Reading written cells records nothing. -/
theorem State.recordReads_of_valid {s : State} {cells : List (Nat × Nat)}
    (h : ∀ x ∈ cells, s.sampleValid x.1 x.2 = true) : s.recordReads cells = s := by
  have hany : cells.any (fun x => !s.sampleValid x.1 x.2) = false :=
    List.any_eq_false.2 fun x hx => by simp [h x hx]
  rw [State.recordReads, hany, Bool.or_false]

/-- A packet written in full from the packet's own bits. -/
theorem writePacketBits_range_eq (p q : Packet) {f : Nat → Bool} (h : ∀ i < 54, f i = q.getLsbD i) :
    writePacketBits p 0 ((List.range 54).map f) = q :=
  BitVec.eq_of_getLsbD_eq fun i hi => (getLsbD_writePacketBits_range p f i hi).trans (h i hi)

/-- Where the samples EXTRACT reads are written and hold a packet, EXTRACT gives that packet and records nothing. -/
theorem exec_extract_of_stored {s : State} {c : Nat} {q : Packet} (hc : c < 8)
    (hfit : s.arg.toNat + 56 * s.build.bitsPerBaud.samples ≤ 1024)
    (h : ∀ i < 54, stored s.samples c (s.extractIndex i) (q.getLsbD i)) :
    exec (.extract c) s = .next ((s.setPacket q).complete []) := by
  have hvalid : ∀ x ∈ s.extractCells c, s.sampleValid x.1 x.2 = true := by
    intro x hx
    obtain ⟨i, hi, rfl⟩ := (s.mem_extractCells c x).1 hx
    exact State.sampleValid_of_stored (h i hi)
  rw [exec_extract s hc hfit, State.recordReads_of_valid hvalid,
    writePacketBits_range_eq s.packet q fun i hi => State.sample_of_stored (h i hi)]

/-- A legal `EXTRACT_PHASE` is below `BPB`. -/
theorem Params.extractPhase_lt {b : Params} (h : b.legal = true) : b.extractPhase < b.bitsPerBaud.samples :=
  of_decide_eq_true (Bool.and_eq_true_iff.1 h).1

/-- TO_BYTES's byte at an index below the count shows the sample stored in each channel there. -/
theorem getElem?_packedBytes_of_stored {s : State} {c j n : Nat} {b : Bool} (hc : c < 8) (hj : j < n)
    (h : stored s.samples c j b) :
    ∃ byte, ((List.range n).map s.packedByte)[j]? = some byte ∧ byte.getLsbD c = b := by
  refine ⟨s.packedByte j, ?_, (getLsbD_packedByte s j c hc).trans (State.sample_of_stored h)⟩
  rw [List.getElem?_map, List.getElem?_range hj, Option.map_some]

end Sys2Proof.Machine
end

section
/-! PROOFS. The statements of the family of spec/44_framing.md. -/

namespace Sys2Proof.Proofs

open Sys2Proof.Machine Sys2Proof.Claims Sys2Proof.Laws

/-- Settles O55: the sum is of natural numbers, so it does not wrap around. -/
theorem footprintCheck : Obligations.FootprintCheck := fun s _ hc =>
  ⟨fun hlong => ⟨exec_embed_range s (.inr hlong), exec_extract_range s (.inr hlong)⟩,
    fun hfit => ⟨⟨_, exec_embed s hc hfit, rfl⟩, ⟨_, exec_extract s hc hfit, rfl⟩⟩⟩

/-- Settles O56: the run written is the framed packet's samples. -/
theorem embedWritesFrame : Obligations.EmbedWritesFrame :=
  ⟨fun c => decode_cmdC (i := .embed c) rfl (by rw [opcode]; decide), fun s c =>
    ⟨fun hc hfit => ⟨_, exec_embed s hc hfit, fun _ _ => stored_writeFrame s c s.arg.toNat s.packet,
        keepsOthers_writeFrame s c s.arg.toNat s.packet _⟩,
      exec_embed_range s⟩⟩

/-- Settles O57: all 54 bits of the packet are written, each with the sample at its own index. -/
theorem extractReadsFrame : Obligations.ExtractReadsFrame := by
  refine ⟨fun c => decode_cmdC (i := .extract c) rfl (by rw [opcode]; decide), fun s c =>
    ⟨fun hc hfit => ⟨_, _, exec_extract s hc hfit, fun i => getLsbD_writePacketBits_range s.packet _ i, ?_⟩,
      exec_extract_range s⟩⟩
  refine (s.uninitSampleRead_recordReads (s.extractCells c)).trans (or_congr_right ?_)
  constructor
  · rintro ⟨x, hx, hv⟩
    obtain ⟨i, hi, rfl⟩ := (s.mem_extractCells c x).1 hx
    exact ⟨i, hi, hv⟩
  · rintro ⟨i, hi, hv⟩
    exact ⟨_, (s.mem_extractCells c _).2 ⟨i, hi, rfl⟩, hv⟩

/-- Settles O58: packet bit `i` is logical bit `i + 1`, and a legal phase picks one of that bit's samples. -/
theorem embedExtractRoundTrip : Obligations.EmbedExtractRoundTrip := by
  intro s t u c hlegal hc hfit h hsame hbuild harg
  refine ⟨_, exec_extract_of_stored (q := s.packet) hc (by rw [harg, hbuild]; exact hfit) fun i hi => ?_, rfl, rfl⟩
  have hl : i + 1 < 56 := by omega
  have hphase := Params.extractPhase_lt hlegal
  have hbit := stored_of_exec_embed hc hfit h hl hphase
  have hindex : u.extractIndex i =
      s.arg.toNat + (i + 1) * s.build.bitsPerBaud.samples + s.build.extractPhase := by
    rw [State.extractIndex, State.frameOffset, State.bpb, harg, hbuild]
  have hlt := frameSample_lt hl hphase
  rw [logicalBit_succ s.packet hi] at hbit
  rw [hindex]
  exact (hsame _ (by omega)).trans hbit

/-- Settles O59: every sample of the frame lies below the count, and bit `c` of its byte is channel `c`. -/
theorem frameInByteStream : Obligations.FrameInByteStream := by
  intro s t c n hc hfit h hn
  refine ⟨_, _, exec_toBytes _, rfl, fun l k hl hk => ?_⟩
  have hbit := stored_of_exec_embed hc hfit h hl hk
  have hlt := frameSample_lt hl hk
  refine getElem?_packedBytes_of_stored hc (lt_min (Nat.lt_of_lt_of_le ?_ hn) ?_) hbit <;> omega

end Sys2Proof.Proofs
end

-- The family of spec/60_exceptions.md: the two errors, the order of the checks, the interactions, and the record.
section
/-! PROOFS. The causes of `IllegalCommand`: a reserved opcode, or an opcode's row with another bit wrong. -/

namespace Sys2Proof.Laws

open Sys2Proof.Claims

/-! ## The reserved opcodes (spec/30_encoding.md R75) -/

/-- The field `OP` is what stands above the other 26 bits. -/
theorem fieldOp_eq_div (w : Word) : fieldOp w = w.toNat / 2 ^ 26 := by
  have := w.isLt
  rw [fieldOp, wordField_eq]
  omega

theorem opcode_not_mem_reservedOpcodes (i : Instr) : opcode i ∉ reservedOpcodes := by
  cases i <;> exact of_decide_eq_true rfl

theorem exists_opcode_eq : ∀ n < 64, n ∉ reservedOpcodes → ∃ i ∈ commands, n = opcode i := by decide

/-- An opcode is reserved exactly where no command has it. -/
theorem fieldOp_not_mem_reservedOpcodes_iff (w : Word) : fieldOp w ∉ reservedOpcodes ↔ ∃ i, fieldOp w = opcode i := by
  constructor
  · intro h
    obtain ⟨i, -, hi⟩ := exists_opcode_eq _ (wordField_lt w 26 6) h
    exact ⟨i, hi⟩
  · rintro ⟨i, hi⟩
    exact hi ▸ opcode_not_mem_reservedOpcodes i

theorem acceptIf_ne_reservedOpcode (zero : Bool) (i : Instr) : acceptIf zero i ≠ .error .reservedOpcode := by
  cases zero <;> simp [acceptIf]

theorem decode_eq_reservedOpcode_iff (w : Word) :
    decode w = .error .reservedOpcode ↔ fieldOp w ∈ reservedOpcodes := by
  constructor
  · intro h
    by_contra hres
    obtain ⟨i, hi⟩ := (fieldOp_not_mem_reservedOpcodes_iff w).1 hres
    exact acceptIf_ne_reservedOpcode _ _ ((decode_of_fieldOp hi).symm.trans h)
  · intro h
    unfold decode
    split
    case h_40 => rfl
    all_goals
      rename_i hop
      rw [hop] at h
      exact absurd h (by decide)

/-! ## A word that no row matches (spec/60_exceptions.md R272) -/

theorem fieldOp_pattern_rowOf (i : Instr) : fieldOp (rowOf i).pattern = opcode i :=
  (fields_assembleWord (c := 0) (lo := 0) (len := 0) (opcode_lt i) (by omega) (by omega) (by omega)).1

/-- Of the rows with a word's opcode all match the word or none does. -/
theorem masked_rowOf_of_fieldOp {w : Word} {i j : Instr} (hop : fieldOp w = opcode i)
    (hj : w &&& (rowOf j).mask = (rowOf j).pattern) : w &&& (rowOf i).mask = (rowOf i).pattern := by
  obtain ⟨k, hk, -⟩ := masked_rowOf_iff_decode.1 hj
  obtain ⟨hzero, -⟩ := acceptIf_eq_ok.1 ((decode_of_fieldOp hop).symm.trans hk)
  exact (masked_rowOf_iff w i).2 ⟨hop, hzero⟩

/-- No row matches a word exactly where its opcode is reserved, or a row has its opcode and another bit is wrong. -/
theorem no_row_matches_iff (w : Word) : (∀ r ∈ opcodeMap, w &&& r.mask ≠ r.pattern) ↔
    fieldOp w ∈ reservedOpcodes ∨ ∃ r ∈ opcodeMap, fieldOp r.pattern = fieldOp w ∧ w &&& r.mask ≠ r.pattern := by
  constructor
  · intro hno
    refine or_iff_not_imp_left.2 fun hres => ?_
    obtain ⟨i, hi⟩ := (fieldOp_not_mem_reservedOpcodes_iff w).1 hres
    have hmem := mem_opcodeMap_iff.2 ⟨i, rfl⟩
    exact ⟨rowOf i, hmem, (fieldOp_pattern_rowOf i).trans hi.symm, hno _ hmem⟩
  · rintro h q hq hm
    obtain ⟨j, rfl⟩ := mem_opcodeMap_iff.1 hq
    rcases h with hres | ⟨r, hr, hop, hne⟩
    · obtain ⟨hop, -⟩ := (masked_rowOf_iff w j).1 hm
      exact opcode_not_mem_reservedOpcodes j (hop ▸ hres)
    · obtain ⟨i, rfl⟩ := mem_opcodeMap_iff.1 hr
      exact hne (masked_rowOf_of_fieldOp (hop.symm.trans (fieldOp_pattern_rowOf i)) hm)

end Sys2Proof.Laws
end

section
/-! PROOFS. The causes of `RangeError`, a step on a command word, and what a command does to the record of unwritten
reads. -/

namespace Sys2Proof.Machine

open Sys2Proof.Claims

/-! ## The causes of `RangeError` (spec/60_exceptions.md R273) -/

theorem channelOk_eq_false_iff (c : Nat) : channelOk c = false ↔ 8 ≤ c :=
  decide_eq_false_iff_not.trans Nat.not_lt

theorem lengthOk_eq_false_iff (len : Nat) : lengthOk len = false ↔ 32 < len :=
  decide_eq_false_iff_not.trans Nat.not_le

theorem fieldOk_eq_false_iff (lo len : Nat) : fieldOk lo len = false ↔ 54 < lo + len :=
  decide_eq_false_iff_not.trans Nat.not_le

theorem State.footprintOk_eq_false_iff (s : State) :
    s.footprintOk = false ↔ 1024 < s.arg.toNat + 56 * s.build.bitsPerBaud.samples :=
  decide_eq_false_iff_not.trans Nat.not_le

/-- A command's range checks fail exactly for the causes of R273. -/
theorem rangeOk_eq_false_iff (s : State) (i : Instr) : rangeOk s i = false ↔ rangeCause s i := by
  cases i with
  | setChannelBitstream c | getChannelBitstream c | setClockPattern c => exact channelOk_eq_false_iff c
  | intToBits len | bitsToInt len => exact lengthOk_eq_false_iff len
  | fieldGet lo len | fieldSet lo len =>
    exact (Bool.and_eq_false_iff ..).trans (or_congr (lengthOk_eq_false_iff len) (fieldOk_eq_false_iff lo len))
  | embed c | extract c =>
    exact (Bool.and_eq_false_iff ..).trans (or_congr (channelOk_eq_false_iff c) s.footprintOk_eq_false_iff)
  | _ => simp [rangeOk, rangeCause]

theorem rangeCause_congr {s u : State} (ha : u.arg = s.arg) (hb : u.build = s.build) (i : Instr) :
    rangeCause u i ↔ rangeCause s i := by
  rw [← rangeOk_eq_false_iff, ← rangeOk_eq_false_iff, rangeOk_congr ha hb]

/-- An admitted command with a cause of R273 raises `RangeError` and does nothing else. -/
theorem exec_of_rangeCause {i : Instr} {s : State} (hin : need s i ≤ s.din.length) (hc : rangeCause s i) :
    exec i s = .next (ended s 1 []) := exec_of_not_rangeOk hin ((rangeOk_eq_false_iff s i).2 hc)

/-- An admitted command without a cause of R273 does its effect and completes. -/
theorem exec_of_not_rangeCause {i : Instr} {s : State} (hin : need s i ≤ s.din.length) (hc : ¬ rangeCause s i) :
    exec i s = .next ((commandEffect s i).complete (commandOutput s i)) :=
  exec_of_rangeOk hin (Bool.eq_true_of_not_eq_false (mt (rangeOk_eq_false_iff s i).1 hc))

/-! ## A step on a command word, in the words of the statements -/

section CommandWord

variable {s : State} {w : Word} {din : List Byte} {rest : List Interaction}

theorem step_eq_exec {i : Instr} (h : s.pending = .command w din :: rest) (hw : decode w = .ok i) :
    step s = exec i { s with pending := rest, din := din } := by
  obtain rfl : s.pending.tail = rest := congrArg List.tail h
  exact step_command h hw

theorem step_eq_ended_of_illegal {e : IllegalWord} (h : s.pending = .command w din :: rest)
    (hw : decode w = .error e) : step s = .next (ended { s with pending := rest } 2 []) := by
  obtain rfl : s.pending.tail = rest := congrArg List.tail h
  exact step_illegal (din := din) h hw

end CommandWord

/-! ## The record of unwritten reads (spec/60_exceptions.md R279) -/

section Record

variable {i : Instr} {s t : State}

theorem exec_next_record (h : exec i s = .next t) (hs : s.uninitSampleRead = true) : t.uninitSampleRead = true := by
  obtain rfl | ⟨u, dout, hk, rfl⟩ := exec_next_cases h
  · exact hs
  · exact hk.record hs

/-- The samples EXTRACT reads lie inside the frame's footprint, so inside the channel. -/
theorem State.extractIndex_lt (hl : s.build.legal = true) (hf : s.footprintOk = true) {j : Nat} (hj : j < 54) :
    s.extractIndex j < 1024 := by
  have hfit := s.footprintOk_iff.1 hf
  have hlt := frameSample_lt (t := j + 1) (by omega) (Params.extractPhase_lt hl)
  rw [State.extractIndex, State.frameOffset, State.bpb]
  omega

/-- Reading cells of a written store records nothing. -/
theorem State.recordReads_of_storeWritten {cells : List (Nat × Nat)} (hw : s.storeWritten)
    (hin : ∀ x ∈ cells, x.1 < 8 ∧ x.2 < 1024) : s.recordReads cells = s :=
  State.recordReads_of_valid fun x hx => hw x.1 x.2 (hin x hx).1 (hin x hx).2

/-- A command whose checks pass reads cells of the store only, so with the store written its effect records nothing. -/
theorem uninitSampleRead_commandEffect (hl : s.build.legal = true) (hw : s.storeWritten) (hr : rangeOk s i = true) :
    (commandEffect s i).uninitSampleRead = s.uninitSampleRead := by
  have hn := s.count_le
  cases i with
  | toBytes =>
    refine congrArg State.uninitSampleRead (State.recordReads_of_storeWritten hw fun x hx => ?_)
    obtain ⟨hc, hj⟩ := (mem_allChannelCells _ x).1 hx
    exact ⟨hc, hj.trans_le hn⟩
  | getChannelBitstream c =>
    refine congrArg State.uninitSampleRead (State.recordReads_of_storeWritten hw fun x hx => ?_)
    obtain ⟨rfl, hj⟩ := (mem_channelCells c _ x).1 hx
    exact ⟨of_decide_eq_true hr, hj.trans_le hn⟩
  | extract c =>
    obtain ⟨hc, hf⟩ := Bool.and_eq_true_iff.1 hr
    refine (State.setPacket_uninitSampleRead _ _).trans
      (congrArg State.uninitSampleRead (State.recordReads_of_storeWritten hw fun x hx => ?_))
    obtain ⟨j, hj, rfl⟩ := (s.mem_extractCells c x).1 hx
    exact ⟨of_decide_eq_true hc, State.extractIndex_lt hl hf hj⟩
  | _ => simp [commandEffect]

theorem exec_next_uninitSampleRead (h : exec i s = .next t) (hl : s.build.legal = true) (hw : s.storeWritten) :
    t.uninitSampleRead = s.uninitSampleRead := by
  rw [exec_eq] at h
  rcases requireRange_eq_next (requireInput_eq_next h).2 with ⟨hr, h⟩ | ⟨-, rfl⟩
  · obtain rfl := Host.Outcome.next.inj h
    exact uninitSampleRead_commandEffect hl hw hr
  · rfl

/-- No command takes a written sample away (`commandsKeepSamplesValid`), so none takes one from the written store. -/
theorem exec_next_storeWritten (h : exec i s = .next t) (hw : s.storeWritten) : t.storeWritten :=
  fun c j hc hj => Proofs.commandsKeepSamplesValid i s t c j h (hw c j hc hj)

end Record

end Sys2Proof.Machine
end

section
/-! PROOFS. The statements of the family of spec/60_exceptions.md. -/

namespace Sys2Proof.Proofs

open Sys2Proof.Machine Sys2Proof.Claims Sys2Proof.Laws

/-- Settles O5: a row matches where its opcode and its class's unused bits do, and every opcode that is not reserved has
a row. -/
theorem illegalCommandCauses : Obligations.IllegalCommandCauses := by
  refine ⟨fun w => ?_, fun w => ?_, fun s w din rest e => step_eq_ended_of_illegal⟩
  · simpa only [fieldOp_eq_div] using no_row_matches_iff w
  · simpa only [fieldOp_eq_div] using decode_eq_reservedOpcode_iff w

/-- Settles O20: without a cause of R273 the command completes with code 0. -/
theorem rangeErrorCauses : Obligations.RangeErrorCauses := by
  refine fun i s hin => ⟨fun h => ?_, exec_of_rangeCause hin⟩
  by_contra hc
  have hst := congrArg State.status (Host.Outcome.next.inj (h.symm.trans (exec_of_not_rangeCause hin hc)))
  exact absurd hst (show (1 : Word) ≠ 0 by decide)

/-- Settles O21: by the normal form of a command. -/
theorem nothingElseFails : Obligations.NothingElseFails := fun _ _ hin hc =>
  ⟨_, exec_of_not_rangeCause hin hc, rfl⟩

/-- Settles O22: a command with an error code did nothing but raise it, and so does an illegal word. -/
theorem errorChangesOnlyStatus : Obligations.ErrorChangesOnlyStatus := by
  refine ⟨fun i s t => exec_next_eq_raise, fun s t w din rest h ht hst => ?_,
    fun s w din rest e h hw => ⟨_, step_illegal h hw, rfl⟩⟩
  obtain ⟨i, hx⟩ | rfl := step_command_next_cases h ht
  · obtain rfl := exec_next_eq_raise hx hst
    exact ⟨rfl, rfl, rfl, rfl, rfl, rfl⟩
  · exact ⟨rfl, rfl, rfl, rfl, rfl, rfl⟩

/-- Settles O23: the decoder comes before the command, and in the command input admission before the range checks. -/
theorem checkOrder : Obligations.CheckOrder := by
  refine fun s w din rest h => ⟨fun e => step_eq_ended_of_illegal h, fun i hw hshort => ?_, fun i hw hin hc => ?_⟩
  · rw [step_eq_exec h hw, exec_eq_fault_iff]
    exact hshort.trans_eq (need_congr rfl i).symm
  · exact (step_eq_exec h hw).trans (exec_of_rangeCause ((need_congr rfl i).trans_le hin)
      ((rangeCause_congr rfl rfl i).2 hc))

/-- Settles O26: a command's effect keeps the record once it is set, and no interaction clears it. -/
theorem uninitRecordSticky : Obligations.UninitRecordSticky := by
  intro s t h hs
  rcases step_next_cases h with ⟨-, rfl⟩ | ⟨v, -, -, rfl⟩ | ⟨-, -, rfl⟩ | ⟨-, -, rfl⟩ | ⟨-, -, rfl⟩ |
    ⟨w, din, -, -, ⟨i, -, hx⟩ | ⟨e, -, rfl⟩⟩
  · exact hs
  · exact hs
  · exact hs
  · exact hs
  · exact hs
  · exact exec_next_record hx hs
  · exact hs

/-- Settles O28: the cells a command reads are cells of the store, by its checks and the legal phase. -/
theorem writtenStoreNeverRecords : Obligations.WrittenStoreNeverRecords := by
  refine ⟨fun i s t hl hw h => ⟨exec_next_storeWritten h hw, exec_next_uninitSampleRead h hl hw⟩,
    fun s t hl hw hno h => ?_⟩
  rcases step_next_cases h with ⟨-, rfl⟩ | ⟨v, -, -, rfl⟩ | ⟨-, -, rfl⟩ | ⟨-, -, rfl⟩ | ⟨rest, hp, -⟩ |
    ⟨w, din, -, -, ⟨i, -, hx⟩ | ⟨e, -, rfl⟩⟩
  · exact ⟨hl, hw, rfl⟩
  · exact ⟨hl, hw, rfl⟩
  · exact ⟨hl, hw, rfl⟩
  · exact ⟨hl, hw, rfl⟩
  · exact absurd hp (hno rest)
  · have hrecord := exec_next_uninitSampleRead hx hl hw
    exact ⟨exec_next_build hx ▸ hl, exec_next_storeWritten hx hw, hrecord⟩
  · exact ⟨hl, hw, rfl⟩

/-- Settles O7: the equation of `step` at a legal command word. -/
theorem stepRunsDecodedCommand : Obligations.StepRunsDecodedCommand := fun _ _ _ _ _ => step_eq_exec

/-- Settles O8: by the equations of `step`, one per interaction; either end of a command gives back one `DOUT`. -/
theorem hostInteractions : Obligations.HostInteractions := by
  intro s rest
  refine ⟨fun v h => ?_, fun w din i => step_eq_exec, fun w din e => step_eq_ended_of_illegal, fun w din t h ht => ?_,
    fun h => ?_, fun h => ?_, fun h => ?_⟩
  · obtain rfl : s.pending.tail = rest := congrArg List.tail h
    exact step_writeArg h
  · obtain ⟨i, hx⟩ | rfl := step_command_next_cases h ht
    · exact exec_next_responses (s := s.beginCommand din) hx
    · exact ⟨[], rfl⟩
  · obtain rfl : s.pending.tail = rest := congrArg List.tail h
    exact step_readResult h
  · obtain rfl : s.pending.tail = rest := congrArg List.tail h
    exact step_readStatus h
  · obtain rfl : s.pending.tail = rest := congrArg List.tail h
    exact step_reset h

end Sys2Proof.Proofs
end

-- The family of spec/70_reset_and_hazards.md: the commands after which no sample is unwritten (R302).
section
/-! PROOFS. The commands that write the whole sample store: INIT_HIGH, INIT_LOW, and FROM_BYTES over 1024 bytes. -/

namespace Sys2Proof.Machine

open Sys2Proof.Laws

variable {s : State}

/-- The end of a command writes no sample and takes none away. -/
theorem State.storeWritten_complete {dout : List Byte} : (s.complete dout).storeWritten ↔ s.storeWritten := Iff.rfl

theorem State.storeWritten_fillSamples (b : Bool) : (s.fillSamples b).storeWritten :=
  fun c j hc hj => (s.sample_fillSamples b c j hc hj).2

/-- One byte for each of the 1024 indices writes each index of all eight channels. -/
theorem State.storeWritten_unpackBytes {bytes : List Byte} (hn : bytes.length = 1024) :
    (s.unpackBytes bytes).storeWritten := by
  intro c j hc hj
  have hread := read_unpackInto s.samples bytes hn.le c j hc hj
  have hlt : j < bytes.length := hj.trans_eq hn.symm
  rw [if_pos hlt, List.getElem?_eq_getElem hlt] at hread
  exact State.sampleValid_of_stored hread

end Sys2Proof.Machine
end

section
/-! PROOFS. The statements of the family of spec/70_reset_and_hazards.md. -/

namespace Sys2Proof.Proofs

open Sys2Proof.Machine Sys2Proof.Claims Sys2Proof.Laws

/-- Settles O27: the two fills reach every sample, and an admitted FROM_BYTES with `ARG` of 1024 or more takes exactly 1024
bytes, one for each index. -/
theorem fillingWritesTheStore : Obligations.FillingWritesTheStore := by
  rintro s t (h | h | ⟨harg, h⟩)
  · obtain rfl := Host.Outcome.next.inj ((exec_initHigh s).symm.trans h)
    exact State.storeWritten_complete.2 (State.storeWritten_fillSamples true)
  · obtain rfl := Host.Outcome.next.inj ((exec_initLow s).symm.trans h)
    exact State.storeWritten_complete.2 (State.storeWritten_fillSamples false)
  · have hin : s.count ≤ s.din.length := (requireInput_eq_next h).1
    obtain rfl := Host.Outcome.next.inj ((exec_fromBytes hin).symm.trans h)
    have hcount : s.count = 1024 := Nat.min_eq_right harg
    exact State.storeWritten_complete.2
      (State.storeWritten_unpackBytes ((length_take_count hin).trans hcount))

end Sys2Proof.Proofs
end
